-- ==== Sys2Proof/Word.lean ====
section
/-! DEFINITION. The value types of the block: words, bytes, the 256-bit key, and the binary64 datum (00_scope.md R7, R9, R11). -/

namespace Sys2Proof

/-- A u32 (R9): `W = 32` bits (R7). -/
abbrev Word := BitVec 32

/-- The 64-bit encoding of a binary64 value, or a u64 (R9, R11). -/
abbrev Bits64 := BitVec 64

/-- One byte of the stream-cipher key (R82). -/
abbrev Byte := BitVec 8

/-- The 256-bit stream-cipher key: exactly 32 bytes (R7, R82). -/
abbrev Key := Vector Byte 32

/-- A state of the stream cipher (R8 (a), R32). The spec leaves `CC.State` open: a state stands here
as a natural number that codes it, so that the block's state stays plain data (log entry 1). -/
abbrev CcState := Nat

/-- A binary64 datum (R11). A finite datum is its sign and its magnitude counted in units of
2^-1074, the smallest positive binary64; every finite binary64 is a whole number of these units. -/
inductive F64 where
  | nan
  | inf (neg : Bool)
  | fin (neg : Bool) (units : Nat)
  deriving DecidableEq, Repr, Inhabited

/-- A binary64 value x with 0.0 <= x < 1.0 and not NaN: what the law of R8 (a) says of every
`CC.nextF64` value. Codes 0 to 0x3FEFFFFFFFFFFFFF are the encodings with sign bit 0 below that of
1.0; the one further code is -0.0, which also satisfies 0.0 <= x. -/
structure UnitF64 where
  code : Fin 0x3FF0000000000001
  deriving DecidableEq, Repr, Inhabited

end Sys2Proof
end

