-- ==== Sys2Proof/Config.lean ====
section
/-! DEFINITION. The open parameters of R8 (`CC`, `MAX_DRAWS`, `HOST_BUS_MAP`) and the values the spec leaves free.
Every `opaque` here has no body: no proof can see its value, so a theorem holds whatever it is. -/

namespace Sys2Proof

/-- R8 (a): the keystream generator `CC`. Its range law is carried by the type of `nextF64`'s value;
that a call is a function of the state is the determinism of R124. -/
structure CC where
  init : Key → CcState
  nextU32 : CcState → Word × CcState
  nextF64 : CcState → UnitF64 × CcState

/-- The parameters a command's meaning reads (R8 (a) and (b), R35). -/
structure Params where
  cc : CC
  maxDraws : Option Nat

/-- R8 (c), R45: where a platform's bus shows the block's registers. No rule reads it, and nothing
in the model does (log entry 14). -/
structure HostBusMap where
  status : Nat
  res : Nat
  resf : Nat
  stream : Nat
  deriving DecidableEq, Repr, Inhabited

/-- R8 (a): `CC.init` of the block at hand; open (D21). -/
opaque Config.ccInit : Key → CcState

/-- R8 (a): `CC.nextU32` of the block at hand; open (D21). -/
opaque Config.ccNextU32 : CcState → Word × CcState

/-- R8 (a): `CC.nextF64` of the block at hand; open but for its range law (D21). -/
opaque Config.ccNextF64 : CcState → UnitF64 × CcState

/-- R8 (b): `MAX_DRAWS` of the block at hand; open (D23). -/
opaque Config.maxDraws : Option Nat

/-- R8 (c): `HOST_BUS_MAP` of the block at hand; open (D32). -/
opaque Config.hostBusMap : HostBusMap

/-- R13: what `HostWeak()` answers at its n-th query where the state lists no answer for it. A free
value (U7, U9). -/
opaque Config.hostWeak : Nat → Option Bits64

/-- R13: what `HostTimeMs()` answers at its n-th query where the state lists no answer for it. A free
value (U8). -/
opaque Config.hostTime : Nat → Bits64

/-- The sign and payload of the encoding of a NaN, which the spec does not give (log entry 8). No
command encodes a NaN. -/
opaque Config.nanBits : Bits64

/-- `floor` and `trunc` of a NaN or an infinity, which R11 does not define (log entry 8). No command
takes either. -/
opaque Config.integerOfNonFinite : F64 → Int

/-- The keystream generator of the block at hand. -/
def Config.cc : CC :=
  { init := Config.ccInit, nextU32 := Config.ccNextU32, nextF64 := Config.ccNextF64 }

/-- The parameters of the block at hand. -/
def Config.params : Params := { cc := Config.cc, maxDraws := Config.maxDraws }

end Sys2Proof
end

