-- ==== Sys2Proof/Machine/Float64.lean ====
section
/-! DEFINITION. The binary64 primitives of R11: encoding, comparison, correctly rounded product and quotient, floor
and truncation. -/

namespace Sys2Proof

/-- 1.0 counted in units of 2^-1074. (Irreducible: elaboration should not write out its digits.) -/
@[irreducible] def unitsOfOne : Nat := 2 ^ 1074

/-- The first magnitude beyond the finite range, 2^1024, in units of 2^-1074. -/
@[irreducible] def unitsOfOverflow : Nat := 2 ^ 2098

/-- R11: the datum a 64-bit encoding stands for (bit 63 the sign, 62:52 the exponent, 51:0 the
fraction). -/
def F64.ofBits (b : Bits64) : F64 :=
  let neg := b.getLsbD 63
  let e := (b.extractLsb' 52 11).toNat
  let f := (b.extractLsb' 0 52).toNat
  if e = 2047 then (if f = 0 then .inf neg else .nan)
  else if e = 0 then .fin neg f
  else .fin neg ((2 ^ 52 + f) * 2 ^ (e - 1))

/-- The exponent of the spacing of binary64 around a magnitude of `u` units: binary64 has 53
significant bits, and no spacing below one unit. -/
def spacingExp (u : Nat) : Nat := u.log2 - 52

/-- Exponent and fraction fields of a finite magnitude. Adding the significand with its leading bit
to the shifted exponent carries that bit into the exponent field. -/
def magnitudeBits (u : Nat) : Nat := spacingExp u * 2 ^ 52 + u / 2 ^ spacingExp u

/-- R11: `bits64`. A NaN has no one encoding: its sign and payload are free (log entry 8). -/
def F64.bits64 : F64 → Bits64
  | .nan => 0x7FF8000000000000#64 ||| Config.nanBits
  | .inf neg => BitVec.ofBool neg ++ 0x7FF0000000000000#63
  | .fin neg u => BitVec.ofBool neg ++ BitVec.ofNat 63 (magnitudeBits u)

/-- The encoding of a value that satisfies the law of R8 (a). -/
def UnitF64.bits (x : UnitF64) : Bits64 :=
  if x.code.val < 0x3FF0000000000000 then BitVec.ofNat 64 x.code.val
  else 0x8000000000000000#64

/-- R11: `f64(n)`, exact for n < 2^53. -/
def F64.ofNat (n : Nat) : F64 := .fin false (n * unitsOfOne)

/-- The whole number nearest to `num / den`, ties to even. -/
def roundNearestEven (num den : Nat) : Nat :=
  let q := num / den
  let r := num % den
  if 2 * r < den then q
  else if den < 2 * r then q + 1
  else q + q % 2

/-- R11: `num / den` units rounded to the nearest binary64 magnitude, ties to even, before overflow. -/
def roundUnits (num den : Nat) : Nat :=
  let k := spacingExp (num / den)
  roundNearestEven num (den * 2 ^ k) * 2 ^ k

/-- A rounded magnitude with its sign; one beyond the finite range is an infinity. -/
def F64.ofRounded (neg : Bool) (u : Nat) : F64 :=
  if u < unitsOfOverflow then .fin neg u else .inf neg

/-- R11: the product of two binary64 values, rounded to nearest, ties to even. -/
def fmul : F64 → F64 → F64
  | .nan, _ => .nan
  | _, .nan => .nan
  | .inf a, .inf b => .inf (a ^^ b)
  | .inf a, .fin b v => if v = 0 then .nan else .inf (a ^^ b)
  | .fin a u, .inf b => if u = 0 then .nan else .inf (a ^^ b)
  | .fin a u, .fin b v => F64.ofRounded (a ^^ b) (roundUnits (u * v) unitsOfOne)

/-- R11: the quotient of two binary64 values, rounded to nearest, ties to even. -/
def fdiv : F64 → F64 → F64
  | .nan, _ => .nan
  | _, .nan => .nan
  | .inf _, .inf _ => .nan
  | .inf a, .fin b _ => .inf (a ^^ b)
  | .fin a _, .inf b => .fin (a ^^ b) 0
  | .fin a u, .fin b v =>
    if v = 0 then (if u = 0 then .nan else .inf (a ^^ b))
    else F64.ofRounded (a ^^ b) (roundUnits (u * unitsOfOne) v)

/-- R11: the greatest integer <= x; free for a NaN or an infinity (log entry 8). -/
def F64.floor : F64 → Int
  | .fin false u => (u / unitsOfOne : Nat)
  | .fin true u => -((u + (unitsOfOne - 1)) / unitsOfOne : Nat)
  | .inf neg => Config.integerOfNonFinite (.inf neg)
  | .nan => Config.integerOfNonFinite .nan

/-- R11: the integer part of x, rounded toward zero; free for a NaN or an infinity (log entry 8). -/
def F64.trunc : F64 → Int
  | .fin false u => (u / unitsOfOne : Nat)
  | .fin true u => -(u / unitsOfOne : Nat)
  | .inf neg => Config.integerOfNonFinite (.inf neg)
  | .nan => Config.integerOfNonFinite .nan

/-- Where a datum stands on the number line, in units; none for a NaN. Both zeros stand at 0. -/
def F64.rank : F64 → Option Int
  | .nan => none
  | .inf false => some unitsOfOverflow
  | .inf true => some (-unitsOfOverflow)
  | .fin false u => some u
  | .fin true u => some (-u)

/-- The comparison 0.0 <= r < 1.0 of R84 and R130; false for a NaN. -/
def F64.inUnit (r : F64) : Bool :=
  match r.rank with
  | none => false
  | some v => decide (0 ≤ v) && decide (v < unitsOfOne)

end Sys2Proof
end

