-- ==== Sys2Proof/Syntax.lean ====
section
/-! DEFINITION. The nine commands (R63, R71), the opcode names, and the lines of the assembler with its
pseudo-instructions (R68, R69, R76). -/

namespace Sys2Proof

/-- The commands of R63, one constructor per row of the opcode table. The only operand is MT.SEED's
whole operand word (R62). -/
inductive Instr where
  | init
  | mtSeed (seed : Word)
  | mtU32
  | mtF64
  | ccU32
  | ccF64
  | hybrid
  | drawMain
  | drawPb
  deriving DecidableEq, Repr

/-- The nine assigned opcodes of R63, by name. -/
inductive Opcode where
  | init
  | mtSeed
  | mtU32
  | mtF64
  | ccU32
  | ccF64
  | hybrid
  | drawMain
  | drawPb
  deriving DecidableEq, Repr

/-- The pseudo-instructions of R76; each stands for a sequence of commands. -/
inductive Pseudo where
  | benchMt
  | benchCrypto
  | benchHybrid
  | benchLottery
  | mtSkip
  deriving DecidableEq, Repr

/-- One line of an assembly text, read but not yet checked (R68, R69, R76): a command with the operand
written after it, a raw word, a pseudo-instruction with its count, or nothing. -/
inductive AsmLine where
  | blank
  | command (op : Opcode) (operand : Option Nat)
  | word (value : Nat)
  | pseudo (p : Pseudo) (count : Nat)
  deriving DecidableEq, Repr

/-- The opcode of a command. -/
def Instr.opcode : Instr → Opcode
  | .init => .init
  | .mtSeed _ => .mtSeed
  | .mtU32 => .mtU32
  | .mtF64 => .mtF64
  | .ccU32 => .ccU32
  | .ccF64 => .ccF64
  | .hybrid => .hybrid
  | .drawMain => .drawMain
  | .drawPb => .drawPb

end Sys2Proof
end

