-- ==== Sys2Proof/WellFormed.lean ====
section
/-! DEFINITION. Which commands and which assembly lines are well formed (R62, R68, R69, R76). -/

namespace Sys2Proof

/-- Every command is well formed: the one operand is a whole word and every value 0..0xFFFFFFFF is
legal (R62). What can be ill formed is an assembly line (`AsmLine.wf`). -/
def Instr.wf : Instr → Bool
  | .init => true
  | .mtSeed _ => true
  | .mtU32 => true
  | .mtF64 => true
  | .ccU32 => true
  | .ccF64 => true
  | .hybrid => true
  | .drawMain => true
  | .drawPb => true

/-- R68: an operand or a raw value lies in 0..4294967295. -/
def fitsWord (n : Nat) : Bool := decide (n < 2 ^ 32)

/-- R68, R69, R76: MT.SEED has an operand in range; no other command has one; a `.word` value and a
pseudo-instruction's count are in range. -/
def AsmLine.wf : AsmLine → Bool
  | .blank => true
  | .command .mtSeed (some n) => fitsWord n
  | .command .mtSeed none => false
  | .command _ (some _) => false
  | .command _ none => true
  | .word v => fitsWord v
  | .pseudo _ n => fitsWord n

end Sys2Proof
end

