-- ==== Sys2Proof/Decode.lean ====
section
/-! DEFINITION. The command decoder (R61, R63 to R67), the encoder, and the words of a table row. -/

namespace Sys2Proof

/-- The verdicts of the decoder (R64): a command with the words after it; a reserved word, by its own
name; no word at all; an MT.SEED word whose operand word is not there (R60). -/
inductive Decoded where
  | instr (i : Instr) (rest : List Word)
  | illegalCommand
  | noWord
  | operandMissing
  deriving DecidableEq, Repr

/-- R61: `OPC`, bits 7:0 of a command word. -/
def opcField (w : Word) : BitVec 8 := w.extractLsb' 0 8

/-- R61: `RSVD`, bits 31:8 of a command word. -/
def rsvdField (w : Word) : BitVec 24 := w.extractLsb' 8 24

/-- R63: the opcode map; every other value is reserved (R65). -/
def opcodeOf (b : BitVec 8) : Option Opcode :=
  match b.toNat with
  | 0x01 => some .init
  | 0x02 => some .mtSeed
  | 0x03 => some .mtU32
  | 0x04 => some .mtF64
  | 0x05 => some .ccU32
  | 0x06 => some .ccF64
  | 0x07 => some .hybrid
  | 0x08 => some .drawMain
  | 0x09 => some .drawPb
  | _ => none

/-- R66: the length of a command in words, from its opcode alone. -/
def Opcode.length : Opcode → Nat
  | .mtSeed => 2
  | .init | .mtU32 | .mtF64 | .ccU32 | .ccF64 | .hybrid | .drawMain | .drawPb => 1

/-- The command an opcode names, given the words after the command word (R62, R64). -/
def Opcode.assemble : Opcode → List Word → Decoded
  | .mtSeed, seed :: rest => .instr (.mtSeed seed) rest
  | .mtSeed, [] => .operandMissing
  | .init, rest => .instr .init rest
  | .mtU32, rest => .instr .mtU32 rest
  | .mtF64, rest => .instr .mtF64 rest
  | .ccU32, rest => .instr .ccU32 rest
  | .ccF64, rest => .instr .ccF64 rest
  | .hybrid, rest => .instr .hybrid rest
  | .drawMain, rest => .instr .drawMain rest
  | .drawPb, rest => .instr .drawPb rest

/-- R64: decoding at a command boundary. Total on every list of words. -/
def decode : List Word → Decoded
  | [] => .noWord
  | w :: rest =>
    if rsvdField w ≠ 0 then .illegalCommand
    else
      match opcodeOf (opcField w) with
      | none => .illegalCommand
      | some op => op.assemble rest

/-- R63: the value of `OPC` that names an opcode. -/
def Opcode.code : Opcode → BitVec 8
  | .init => 0x01
  | .mtSeed => 0x02
  | .mtU32 => 0x03
  | .mtF64 => 0x04
  | .ccU32 => 0x05
  | .ccF64 => 0x06
  | .hybrid => 0x07
  | .drawMain => 0x08
  | .drawPb => 0x09

/-- R63: a command word is `zext_32(OPC)`. -/
def Opcode.word (op : Opcode) : Word := op.code.setWidth 32

/-- R61: the words of a command. -/
def encode : Instr → List Word
  | .init => [Opcode.word .init]
  | .mtSeed seed => [Opcode.word .mtSeed, seed]
  | .mtU32 => [Opcode.word .mtU32]
  | .mtF64 => [Opcode.word .mtF64]
  | .ccU32 => [Opcode.word .ccU32]
  | .ccF64 => [Opcode.word .ccF64]
  | .hybrid => [Opcode.word .hybrid]
  | .drawMain => [Opcode.word .drawMain]
  | .drawPb => [Opcode.word .drawPb]

/-- The words of the instruction whose bits are `w`, numbered as the opcode table numbers them: bit 0
is the least significant bit of the first word. The bits at `nbits` and above are 0, up to the two
words of the longest command. -/
def tableWords (nbits w : Nat) : List Word :=
  [BitVec.ofNat 32 (w % 2 ^ nbits), BitVec.ofNat 32 (w % 2 ^ nbits / 2 ^ 32)]

/-- The command the decoder reads from a table row's bits; none where the word is reserved. -/
def decodeTableWord (nbits w : Nat) : Option Instr :=
  match decode (tableWords nbits w) with
  | .instr i _ => some i
  | .illegalCommand | .noWord | .operandMissing => none

end Sys2Proof
end

