-- ==== Sys2Proof/Machine/State.lean ====
section
/-! DEFINITION. Everything the block holds (10_state.md R20 to R36), beside it what the host has handed it (the command
stream and query answers), the ways a step can stop, and the state after reset. -/

namespace Sys2Proof.Machine

/-- R160: the fault causes that are raised. The code 0x00 NONE is the absence of a cause (U12). -/
inductive Cause where
  | illegalCommand
  | mtNotSeeded
  | ccNotKeyed
  | entropyUnavailable
  | entropyRange
  | drawLimit
  deriving DecidableEq, Repr

/-- R30, R31: a seeded MT19937 state, the 624 words `mt[0..623]` and the cursor `mti` in [0, 624]. -/
structure MtState where
  words : Vector Word 624
  mti : Nat
  deriving DecidableEq, Repr

/-- The state of the block, and the host's side of its interface as far as a step reads it.

STATUS (R25) is not stored a second time: MT_VALID is the presence of `mt`, CC_VALID the presence of
`cc`, FAULT the presence of a cause, and CAUSE its code (log entry 2; `statusWord` is the register).
The last five fields are no registers of the block (R35): they are the model's own, and hold what the
host has presented (log entries 3 and 4). -/
structure State where
  /-- R24: the index of the next command word. -/
  cpos : Nat
  /-- R21: `RES[0]`..`RES[4]`. -/
  res : Vector Word 5
  /-- R22: `RESF`. -/
  resf : Bits64
  /-- R30, R31: `mt` and `mti`, absent until seeded (R36). -/
  mt : Option MtState
  /-- R32: `cc`, absent until keyed (R36). -/
  cc : Option CcState
  /-- R33: `pool`, always empty. -/
  pool : List Word
  /-- R28: `STATUS.BUSY`. -/
  busy : Bool
  /-- R29: `STATUS.FAULT` and `STATUS.CAUSE`. -/
  fault : Option Cause
  /-- R34: the values DRAW.MAIN has accepted so far, in acceptance order. -/
  acc : List Nat
  /-- R34: the candidate draws made so far. -/
  ndraw : Nat
  /-- R60: the command words the host has presented since reset, index 0 first. -/
  stream : List Word
  /-- R13: answers of `HostWeak()` still to be given, oldest first; beyond them the answer is free. -/
  weakAnswers : List (Option Bits64)
  /-- R13: answers of `HostTimeMs()` still to be given, oldest first; beyond them the answer is free. -/
  timeAnswers : List Bits64
  /-- How many `HostWeak()` queries have been made. -/
  weakQueries : Nat
  /-- How many `HostTimeMs()` queries have been made. -/
  timeQueries : Nat
  deriving DecidableEq, Repr

/-- Why the block has no step. None of these is a fault of R160: those are next states with STATUS
written (R162). All three are safe: the spec itself says that there is no step. -/
inductive Fault where
  /-- Raised by `step` while STATUS.FAULT = 1 (R164): the block is halted until reset. Safe. -/
  | halted
  /-- Raised by `step` when the stream has no word at cpos (R60, R172, R186 (a)): idle. Safe. -/
  | noCommandWord
  /-- Raised by `step` when the word at cpos is MT.SEED's and no operand word follows yet (R60,
  R186 (c)). Safe. -/
  | operandMissing
  deriving DecidableEq, Repr

/-- Why an instruction is refused. -/
inductive Refusal where
  /-- Raised by an arm of `exec` whose instruction has no meaning yet. No arm raises it: every
  command of R63 has its meaning. Safe. -/
  | notModelled (mnemonic : String)
  deriving DecidableEq, Repr

/-- R36, R180: the block right after reset. The host has presented nothing yet. -/
def State.reset : State :=
  { cpos := 0
    res := Vector.replicate 5 0
    resf := 0
    mt := none
    cc := none
    pool := []
    busy := false
    fault := none
    acc := []
    ndraw := 0
    stream := []
    weakAnswers := []
    timeAnswers := []
    weakQueries := 0
    timeQueries := 0 }

end Sys2Proof.Machine
end

