-- ==== Sys2Proof/Machine/Flags.lean ====
section
/-! DEFINITION. The STATUS register (R25 to R29): its fields, computed from the state that they report on. -/

namespace Sys2Proof.Machine

/-- R26: `STATUS.MT_VALID`, the MT state array and cursor hold a seeded state. -/
def mtValid (s : State) : Bool := s.mt.isSome

/-- R27: `STATUS.CC_VALID`, the stream-cipher state holds a keyed state. -/
def ccValid (s : State) : Bool := s.cc.isSome

/-- R29: `STATUS.FAULT`, the block is halted by a fault. -/
def faultBit (s : State) : Bool := s.fault.isSome

/-- R160: the code of a cause. -/
def Cause.code : Cause → BitVec 8
  | .illegalCommand => 0x01
  | .mtNotSeeded => 0x02
  | .ccNotKeyed => 0x03
  | .entropyUnavailable => 0x04
  | .entropyRange => 0x05
  | .drawLimit => 0x06

/-- R25: `STATUS.CAUSE`; 0 when FAULT = 0. -/
def causeField (s : State) : BitVec 8 :=
  match s.fault with
  | none => 0
  | some c => c.code

/-- R25: the STATUS register, its reserved fields 31:16 and 7:4 hardwired 0. -/
def statusWord (s : State) : Word :=
  0#16 ++ causeField s ++ 0#4 ++ BitVec.ofBool (faultBit s) ++ BitVec.ofBool s.busy
    ++ BitVec.ofBool (ccValid s) ++ BitVec.ofBool (mtValid s)

end Sys2Proof.Machine
end

