-- ==== Sys2Proof/Machine/Ops.lean ====
section
/-! DEFINITION. The shared operations on the state: taking a fault and leaving it, writing results, advancing cpos, the
host queries, and fetching the next command. -/

namespace Sys2Proof.Machine

/-- R12, R162: `raise Fault(code)`, the same from any command. Nothing but STATUS is written; cpos
still holds the faulting command's first word. -/
def State.raise (s : State) (c : Cause) : State :=
  { s with fault := some c, busy := false }

/-- R165, R180: reset, the only way out of a fault. Every element of the block takes its reset value
(R36). The host presents a command stream anew afterwards (R181). The host's query answers are
its own and reset does not touch them (log entry 4). -/
def State.assertReset (s : State) : State :=
  { State.reset with
    weakAnswers := s.weakAnswers
    timeAnswers := s.timeAnswers
    weakQueries := s.weakQueries
    timeQueries := s.timeQueries }

/-- R24: a completed command advances cpos by its length in words. -/
def State.advance (s : State) (n : Nat) : State := { s with cpos := s.cpos + n }

/-- R21: `RES[0] <- v`; the other result registers keep their values (R23). -/
def State.writeRes0 (s : State) (v : Word) : State := { s with res := s.res.set 0 v }

/-- R21: write all five result registers (DRAW.MAIN). -/
def State.writeRes (s : State) (v : Vector Word 5) : State := { s with res := v }

/-- R22: `RESF <- v`. -/
def State.writeResf (s : State) (v : Bits64) : State := { s with resf := v }

/-- R13: what `HostWeak()` answers now: the oldest answer the state lists, or a free value. -/
def weakAnswer (s : State) : Option Bits64 :=
  match s.weakAnswers with
  | a :: _ => a
  | [] => Config.hostWeak s.weakQueries

/-- R13: the state once `HostWeak()` has been queried; a query writes nothing of the block. -/
def State.queriedWeak (s : State) : State :=
  { s with weakAnswers := s.weakAnswers.tail, weakQueries := s.weakQueries + 1 }

/-- R13: what `HostTimeMs()` answers now: the oldest answer the state lists, or a free value. -/
def timeAnswer (s : State) : Bits64 :=
  match s.timeAnswers with
  | t :: _ => t
  | [] => Config.hostTime s.timeQueries

/-- R13: the state once `HostTimeMs()` has been queried. -/
def State.queriedTime (s : State) : State :=
  { s with timeAnswers := s.timeAnswers.tail, timeQueries := s.timeQueries + 1 }

/-- R60, R64: what the decoder says of the stream at cpos. -/
def fetch (s : State) : Decoded := decode (s.stream.drop s.cpos)

end Sys2Proof.Machine
end

