-- ==== Sys2Proof/Machine/Operands.lean ====
section
/-! DEFINITION. The operand forms: the seed word of MT.SEED, the host's checked weak sample, and the two conversions
between words and binary64 that commands share. -/

namespace Sys2Proof.Machine

/-- R62: MT.SEED's operand word is the seed exactly as written, with no extension, scaling or shift. -/
def seedOperand (opnd : Word) : Word := opnd

/-- R84, R130: the checks on a `HostWeak()` answer, in their order: the source must answer
(ENTROPY_UNAVAILABLE), and its value must not be NaN and must lie in [0.0, 1.0) (ENTROPY_RANGE). -/
def checkWeak : Option Bits64 → Except Cause F64
  | none => .error .entropyUnavailable
  | some b => if (F64.ofBits b).inUnit then .ok (F64.ofBits b) else .error .entropyRange

/-- R7: `U32_MAX`. -/
def u32Max : Nat := 4294967295

/-- R80: a weak reading scaled by the maximum 32-bit value and truncated to a u32. -/
def scale32 (r : F64) : Word := BitVec.ofInt 32 (fmul r (F64.ofNat u32Max)).trunc

/-- R101: a u32 normalized to [0,1], closed at both ends. -/
def u01 (n : Word) : F64 := fdiv (F64.ofNat n.toNat) (F64.ofNat u32Max)

end Sys2Proof.Machine
end

