-- ==== Sys2Proof/Machine/Cc.lean ====
section
/-! DEFINITION. The stream-cipher commands CC.U32 and CC.F64 (42_stream_cipher.md). The keystream is the parameter `CC`. -/

namespace Sys2Proof.Machine

/-- R122: CC.U32. -/
def ccU32 (P : Params) (s : State) : State :=
  match s.cc with
  | none => s.raise .ccNotKeyed
  | some c => ({ s with cc := some (P.cc.nextU32 c).2 }.writeRes0 (P.cc.nextU32 c).1).advance 1

/-- R123: CC.F64. -/
def ccF64 (P : Params) (s : State) : State :=
  match s.cc with
  | none => s.raise .ccNotKeyed
  | some c =>
    ({ s with cc := some (P.cc.nextF64 c).2 }.writeResf (P.cc.nextF64 c).1.bits).advance 1

/-- The meaning of CC.U32 (R122). -/
def execCcU32 (s : State) : Host.Outcome State Fault Refusal := .next (ccU32 Config.params s)

/-- The meaning of CC.F64 (R123). -/
def execCcF64 (s : State) : Host.Outcome State Fault Refusal := .next (ccF64 Config.params s)

end Sys2Proof.Machine
end

