-- ==== Sys2Proof/Machine/Mt.lean ====
section
/-! DEFINITION. The MT19937 engine (41_mt19937.md): seeding, twist, extraction, tempering, and the commands MT.SEED,
MT.U32 and MT.F64. -/

namespace Sys2Proof.Machine

/-- R7: `UPPER_MASK`, bit 31. -/
def upperMask : Word := 0x80000000

/-- R7: `LOWER_MASK`, bits 30:0. -/
def lowerMask : Word := 0x7FFFFFFF

/-- R7: `MATRIX_A`. -/
def matrixA : Word := 0x9908B0DF

/-- R7: `INIT_MULT`. -/
def initMult : Word := 1812433253

/-- R95: word i of the seeding recurrence; all arithmetic is modulo 2^32. -/
def seedWord (seed : Word) : Nat → Word
  | 0 => seed
  | i + 1 =>
    let prev := seedWord seed i
    initMult * (prev ^^^ (prev >>> 30)) + BitVec.ofNat 32 (i + 1)

/-- R95, R96: `mt_seed`; the cursor is left at 624, so that the first extraction twists. -/
def mtSeed (seed : Word) : MtState :=
  { words := Vector.ofFn fun i => seedWord seed i.val, mti := 624 }

/-- R97: one new word of the twist, from words i, (i+1) mod 624 and (i+397) mod 624. The shifted value
is the mixed value y (90_conflicts.md C1). -/
def twistWord (cur next far : Word) : Word :=
  let y := (cur &&& upperMask) ||| (next &&& lowerMask)
  let v := far ^^^ (y >>> 1)
  if y.getLsbD 0 then v ^^^ matrixA else v

/-- R46: the word at an index that is taken modulo 624. -/
def wordAt (mt : Vector Word 624) (k : Nat) : Word := mt[k % 624]'(Nat.mod_lt k (by decide))

/-- R97, R98: iteration i of the twist, in place. -/
def twistAt (i : Nat) (h : i < 624) (mt : Vector Word 624) : Vector Word 624 :=
  mt.set i (twistWord mt[i] (wordAt mt (i + 1)) (wordAt mt (i + 397)))

/-- R97, R98: the twist of the array, for i from 0 to 623 in ascending order, each iteration reading
the words as the earlier ones left them. -/
def twistWords (mt : Vector Word 624) : Vector Word 624 := Nat.fold 624 twistAt mt

/-- R97: `twist()`; the cursor is reset to 0. -/
def twist (m : MtState) : MtState := { words := twistWords m.words, mti := 0 }

/-- R100: the four-step tempering transform. -/
def temper (y : Word) : Word :=
  let y := y ^^^ (y >>> 11)
  let y := y ^^^ ((y <<< 7) &&& 0x9D2C5680#32)
  let y := y ^^^ ((y <<< 15) &&& 0xEFC60000#32)
  y ^^^ (y >>> 18)

/-- R99: regenerate the array first when the cursor has consumed all 624 words. -/
def refill (m : MtState) : MtState := if 624 ≤ m.mti then twist m else m

/-- R46: the word an extraction reads lies in the array. -/
theorem refill_mti_lt (m : MtState) : (refill m).mti < 624 := by
  unfold refill twist
  split <;> simp_all

/-- R99: `mt_next()`, the tempered word at the cursor and the state with the cursor advanced. -/
def mtNext (m : MtState) : Word × MtState :=
  let r := refill m
  (temper (r.words[r.mti]'(refill_mti_lt m)), { r with mti := r.mti + 1 })

/-- R102: MT.SEED. STATUS.MT_VALID becomes 1 as the MT state becomes present (log entry 2). -/
def mtSeedCommand (seed : Word) (s : State) : State :=
  { s with mt := some (mtSeed (seedOperand seed)) }.advance 2

/-- R103: MT.U32. -/
def mtU32 (s : State) : State :=
  match s.mt with
  | none => s.raise .mtNotSeeded
  | some m => ({ s with mt := some (mtNext m).2 }.writeRes0 (mtNext m).1).advance 1

/-- R104: MT.F64. -/
def mtF64 (s : State) : State :=
  match s.mt with
  | none => s.raise .mtNotSeeded
  | some m => ({ s with mt := some (mtNext m).2 }.writeResf (u01 (mtNext m).1).bits64).advance 1

/-- The meaning of MT.SEED (R102). -/
def execMtSeed (seed : Word) (s : State) : Host.Outcome State Fault Refusal :=
  .next (mtSeedCommand seed s)

/-- The meaning of MT.U32 (R103). -/
def execMtU32 (s : State) : Host.Outcome State Fault Refusal := .next (mtU32 s)

/-- The meaning of MT.F64 (R104). -/
def execMtF64 (s : State) : Host.Outcome State Fault Refusal := .next (mtF64 s)

end Sys2Proof.Machine
end

