-- ==== Sys2Proof/Machine/Hybrid.lean ====
section
/-! DEFINITION. The entropy-XOR combiner and the command HYBRID (43_hybrid_combiner.md). -/

namespace Sys2Proof.Machine

/-- What `hybrid_word()` gives (R130): a word with the state after the draws, or a fault cause with
the state after the queries that were made. -/
inductive CombinerResult where
  | word (h : Word) (s : State)
  | fault (c : Cause) (s : State)
  deriving DecidableEq, Repr

/-- R130: the state after the combiner's two draws, one value of each engine. -/
def combinerDraws (P : Params) (m : MtState) (c : CcState) (s : State) : State :=
  { s with cc := some (P.cc.nextU32 c).2, mt := some (mtNext m).2 }

/-- R130: the XOR of the stream-cipher word, the MT word and the scaled weak sample. -/
def combinedWord (P : Params) (m : MtState) (c : CcState) (r : F64) : Word :=
  (P.cc.nextU32 c).1 ^^^ (mtNext m).1 ^^^ scale32 r

/-- R130: `hybrid_word()`. All checks come before any draw, in the order of R163; the host is queried
only when both engines are valid. -/
def hybridWord (P : Params) (s : State) : CombinerResult :=
  match s.mt, s.cc with
  | none, _ => .fault .mtNotSeeded s
  | some _, none => .fault .ccNotKeyed s
  | some m, some c =>
    match checkWeak (weakAnswer s) with
    | .error e => .fault e s.queriedWeak
    | .ok r => .word (combinedWord P m c r) (combinerDraws P m c s.queriedWeak)

/-- R131: HYBRID. -/
def hybrid (P : Params) (s : State) : State :=
  match hybridWord P s with
  | .fault e t => t.raise e
  | .word h t => (t.writeResf (u01 h).bits64).advance 1

/-- The meaning of HYBRID (R131). -/
def execHybrid (s : State) : Host.Outcome State Fault Refusal := .next (hybrid Config.params s)

end Sys2Proof.Machine
end

