-- ==== Sys2Proof/Machine/Sampler.lean ====
section
/-! DEFINITION. The rejection-sampling iterator: the commands DRAW.MAIN and DRAW.PB and the draw step
(44_constrained_sampler.md). -/

namespace Sys2Proof.Machine

/-- R7: `MAIN_COUNT`. -/
def mainCount : Nat := 5

/-- R7: `MAIN_RANGE`. -/
def mainRange : Nat := 69

/-- R7: `PB_RANGE`, the multiplier; the values are 1..27 (90_conflicts.md C3). -/
def pbRange : Nat := 26

/-- R140: `main_index`, the floor of one rounded product, plus 1. -/
def mainIndex (x : F64) : Nat := ((fmul x (F64.ofNat mainRange)).floor + 1).toNat

/-- R146: `pb_index`. -/
def pbIndex (x : F64) : Nat := ((fmul x (F64.ofNat pbRange)).floor + 1).toNat

/-- R144: whether `MAX_DRAWS` forbids one more candidate draw. -/
def drawLimitReached (maxDraws : Option Nat) (ndraw : Nat) : Bool :=
  match maxDraws with
  | none => false
  | some l => decide (l ≤ ndraw)

/-- R142: the accepted values once candidate k has been looked at. -/
def accept (acc : List Nat) (k : Nat) : List Nat := if k ∈ acc then acc else acc ++ [k]

/-- R143: the five accepted values in ascending order, as RES[0]..RES[4]. -/
def sortedResults (acc : List Nat) : Vector Word 5 :=
  let v := acc.insertionSort (· ≤ ·)
  #v[BitVec.ofNat 32 (v.getD 0 0), BitVec.ofNat 32 (v.getD 1 0), BitVec.ofNat 32 (v.getD 2 0),
    BitVec.ofNat 32 (v.getD 3 0), BitVec.ofNat 32 (v.getD 4 0)]

/-- R143: DRAW.MAIN completion. -/
def drawComplete (s : State) : State :=
  ({ s with acc := [], ndraw := 0, busy := false }.writeRes (sortedResults s.acc)).advance 1

/-- R142: the candidate that the next draw would give. -/
def candidate (P : Params) (c : CcState) : Nat := mainIndex (F64.ofBits (P.cc.nextF64 c).1.bits)

/-- R142: the state once one candidate has been drawn, counted and looked at. -/
def drawn (P : Params) (c : CcState) (s : State) : State :=
  { s with
    cc := some (P.cc.nextF64 c).2
    ndraw := s.ndraw + 1
    acc := accept s.acc (candidate P c) }

/-- R142: one draw step. A busy block always has `cc` (R37); where it has none, a state no run
reaches, reading it faults as every read of an absent `cc` does (U5; log entry 6). -/
def drawStep (P : Params) (s : State) : State :=
  match s.cc with
  | none => s.raise .ccNotKeyed
  | some c =>
    if drawLimitReached P.maxDraws s.ndraw then s.raise .drawLimit
    else if (drawn P c s).acc.length = mainCount then drawComplete (drawn P c s)
    else drawn P c s

/-- R141: DRAW.MAIN's start step. It does not advance cpos and does not check MT_VALID. -/
def drawMainStart (s : State) : State :=
  match s.cc with
  | none => s.raise .ccNotKeyed
  | some _ => { s with acc := [], ndraw := 0, busy := true }

/-- R145: DRAW.PB. -/
def drawPb (P : Params) (s : State) : State :=
  match hybridWord P s with
  | .fault e t => t.raise e
  | .word h t => (t.writeRes0 (BitVec.ofNat 32 (pbIndex (u01 h)))).advance 1

/-- The meaning of DRAW.MAIN (R141): its start step; the draw steps are the block's own (R142). -/
def execDrawMain (s : State) : Host.Outcome State Fault Refusal := .next (drawMainStart s)

/-- The meaning of DRAW.PB (R145). -/
def execDrawPb (s : State) : Host.Outcome State Fault Refusal := .next (drawPb Config.params s)

end Sys2Proof.Machine
end

