-- ==== Sys2Proof/Machine/Seed.lean ====
section
/-! DEFINITION. Seed derivation and the command INIT (40_seed_derivation.md). -/

namespace Sys2Proof.Machine

/-- R81: `combined_seed`; the time keeps its bits 31:0. -/
def combinedSeed (r : F64) (t : Bits64) : Word := scale32 r ^^^ t.extractLsb' 0 32

/-- R82: the u32 of key group i, `s * (i + 1)` modulo 2^32. -/
def keyGroup (seed : Word) (i : Nat) : Word := seed * BitVec.ofNat 32 (i + 1)

/-- R47, R82: key byte j lies in group j / 4, whose bytes are in little-endian order. -/
def keyByte (seed : Word) (j : Nat) : Byte := (keyGroup seed (j / 4)).extractLsb' (8 * (j % 4)) 8

/-- R82: `derive_key`, exactly 32 bytes. -/
def deriveKey (seed : Word) : Key := Vector.ofFn fun j => keyByte seed j.val

/-- R83, R84: both engines take the one combined seed, and the pool is made empty. The seed and the key
are not retained (R35). -/
def construct (P : Params) (seed : Word) (s : State) : State :=
  { s with mt := some (mtSeed seed), cc := some (P.cc.init (deriveKey seed)), pool := [] }

/-- R84: INIT. The time is queried only when the weak reading has passed its checks. -/
def init (P : Params) (s : State) : State :=
  match checkWeak (weakAnswer s) with
  | .error c => s.queriedWeak.raise c
  | .ok r =>
    (construct P (combinedSeed r (timeAnswer s.queriedWeak)) s.queriedWeak.queriedTime).advance 1

/-- The meaning of INIT (R84). -/
def execInit (s : State) : Host.Outcome State Fault Refusal := .next (init Config.params s)

end Sys2Proof.Machine
end

