-- ==== Sys2Proof/Machine/Dispatch.lean ====
section
/-! DEFINITION. One arm per command: which meaning each has. -/

namespace Sys2Proof.Machine

def exec (i : Instr) (s : State) : Host.Outcome State Fault Refusal :=
  match i with
  | .init => Sys2Proof.Machine.execInit s
  | .mtSeed seed => Sys2Proof.Machine.execMtSeed seed s
  | .mtU32 => Sys2Proof.Machine.execMtU32 s
  | .mtF64 => Sys2Proof.Machine.execMtF64 s
  | .ccU32 => Sys2Proof.Machine.execCcU32 s
  | .ccF64 => Sys2Proof.Machine.execCcF64 s
  | .hybrid => Sys2Proof.Machine.execHybrid s
  | .drawMain => Sys2Proof.Machine.execDrawMain s
  | .drawPb => Sys2Proof.Machine.execDrawPb s

end Sys2Proof.Machine
end

