-- ==== Sys2Proof/Machine/Step.lean ====
section
/-! DEFINITION. One step of the block (R14, R64, R142, R164), and placing an instruction where the next step fetches. -/

namespace Sys2Proof.Machine

/-- One step. A halted block has none (R164); a busy one takes a draw step and no command (R142);
otherwise it decodes at cpos (R64) and runs the command, raises ILLEGAL_COMMAND (R65), or has no step
because a word is missing (R60). -/
def step (s : State) : Host.Outcome State Fault Refusal :=
  if faultBit s then .fault .halted
  else if s.busy then .next (drawStep Config.params s)
  else
    match fetch s with
    | .instr i _ => exec i s
    | .illegalCommand => .next (s.raise .illegalCommand)
    | .noWord => .fault .noCommandWord
    | .operandMissing => .fault .operandMissing

/-- The state with the words of a table row's instruction at cpos of the command stream, where a step
that takes a command fetches it. Earlier words stay (missing ones are filled with 0), and so do
words after the two. -/
def State.withFetchWord (s : State) (nbits w : Nat) : State :=
  { s with
    stream := s.stream.take s.cpos ++ List.replicate (s.cpos - s.stream.length) 0
      ++ tableWords nbits w ++ s.stream.drop (s.cpos + 2) }

end Sys2Proof.Machine
end

