-- ==== Sys2Proof/Machine/Assembly.lean ====
section
/-! DEFINITION. The assembler and disassembler of 30_encoding.md section 3, and the expansion of the
pseudo-instructions (R76). A line of text is a list of characters. -/

namespace Sys2Proof.Machine

/-- R76: the commands one round of a pseudo-instruction stands for. -/
def pseudoRound : Pseudo → List Instr
  | .benchMt => [.mtF64]
  | .benchCrypto => [.ccF64]
  | .benchHybrid => [.hybrid]
  | .benchLottery => [.drawMain, .drawPb]
  | .mtSkip => [.mtU32]

/-- R76: n rounds; the empty sequence for n = 0. -/
def pseudoExpand (p : Pseudo) : Nat → List Instr
  | 0 => []
  | n + 1 => pseudoRound p ++ pseudoExpand p n

/-- The words of a sequence of commands. -/
def encodeAll : List Instr → List Word
  | [] => []
  | i :: is => encode i ++ encodeAll is

/-- R68: the mnemonics of R63, upper case. -/
def opcodeName : Opcode → List Char
  | .init => "INIT".toList
  | .mtSeed => "MT.SEED".toList
  | .mtU32 => "MT.U32".toList
  | .mtF64 => "MT.F64".toList
  | .ccU32 => "CC.U32".toList
  | .ccF64 => "CC.F64".toList
  | .hybrid => "HYBRID".toList
  | .drawMain => "DRAW.MAIN".toList
  | .drawPb => "DRAW.PB".toList

/-- R76: the names of the pseudo-instructions. -/
def pseudoName : Pseudo → List Char
  | .benchMt => "BENCH.MT".toList
  | .benchCrypto => "BENCH.CRYPTO".toList
  | .benchHybrid => "BENCH.HYBRID".toList
  | .benchLottery => "BENCH.LOTTERY".toList
  | .mtSkip => "MT.SKIP".toList

/-- Every opcode, in the order of R63. -/
def allOpcodes : List Opcode :=
  [.init, .mtSeed, .mtU32, .mtF64, .ccU32, .ccF64, .hybrid, .drawMain, .drawPb]

/-- Every pseudo-instruction, in the order of R76. -/
def allPseudos : List Pseudo := [.benchMt, .benchCrypto, .benchHybrid, .benchLottery, .mtSkip]

/-- R69: the directive for a raw word. -/
def wordDirective : List Char := ".word".toList

/-- R68: mnemonics are case-insensitive on input. -/
def upperCase (t : List Char) : List Char := t.map Char.toUpper

/-- The opcode a token names. -/
def opcodeNamed (t : List Char) : Option Opcode :=
  allOpcodes.find? fun op => opcodeName op == upperCase t

/-- The pseudo-instruction a token names. R68's letter-case rule covers the mnemonics of R63 only and R76
is silent: that these names too are accepted in any case is the model's choice (log entry 12). -/
def pseudoNamed (t : List Char) : Option Pseudo :=
  allPseudos.find? fun p => pseudoName p == upperCase t

/-- The value of a digit below 16. -/
def digitValue (c : Char) : Option Nat :=
  if '0' ≤ c ∧ c ≤ '9' then some (c.toNat - 48)
  else if 'A' ≤ c ∧ c ≤ 'F' then some (c.toNat - 55)
  else if 'a' ≤ c ∧ c ≤ 'f' then some (c.toNat - 87)
  else none

/-- The value of a run of digits in a base, the most significant first, continuing from `n`. -/
def digitsValue (base : Nat) : List Char → Nat → Option Nat
  | [], n => some n
  | c :: cs, n =>
    match digitValue c with
    | none => none
    | some d => if d < base then digitsValue base cs (n * base + d) else none

/-- R68: an unsigned integer in decimal, or with a `0x` prefix in hexadecimal. A sign is no digit, so a
negative number is no number. -/
def readNumber : List Char → Option Nat
  | [] => none
  | '0' :: 'x' :: [] => none
  | '0' :: 'x' :: c :: cs => digitsValue 16 (c :: cs) 0
  | c :: cs => digitsValue 10 (c :: cs) 0

/-- R68: the text of a line before its comment. -/
def withoutComment (line : List Char) : List Char := line.takeWhile fun c => c != ';'

/-- White space between tokens (log entry 12). -/
def isBlank (c : Char) : Bool := c == ' ' || c == '\t' || c == '\r'

/-- The tokens of a text, `cur` being the token under way. -/
def tokensFrom : List Char → List Char → List (List Char)
  | cur, [] => if cur.isEmpty then [] else [cur]
  | cur, c :: cs =>
    if isBlank c then (if cur.isEmpty then tokensFrom [] cs else cur :: tokensFrom [] cs)
    else tokensFrom (cur ++ [c]) cs

/-- The tokens of a line. -/
def tokens (line : List Char) : List (List Char) := tokensFrom [] (withoutComment line)

/-- A line whose second token is the number `n`. -/
def lineWithNumber (t : List Char) (n : Nat) : Option AsmLine :=
  if t = wordDirective then some (.word n)
  else
    match opcodeNamed t with
    | some op => some (.command op (some n))
    | none =>
      match pseudoNamed t with
      | some p => some (.pseudo p n)
      | none => none

/-- R68, R69: read one line, a mnemonic with at most one operand and an optional comment. -/
def readLine (line : List Char) : Option AsmLine :=
  match tokens line with
  | [] => some .blank
  | [t] =>
    match opcodeNamed t with
    | some op => some (.command op none)
    | none => none
  | [t, a] =>
    match readNumber a with
    | some n => lineWithNumber t n
    | none => none
  | _ :: _ :: _ :: _ => none

/-- The words of a well-formed line (R68, R69, R76). -/
def lineWords : AsmLine → List Word
  | .blank => []
  | .command .mtSeed operand => encode (.mtSeed (BitVec.ofNat 32 (operand.getD 0)))
  | .command .init _ => encode .init
  | .command .mtU32 _ => encode .mtU32
  | .command .mtF64 _ => encode .mtF64
  | .command .ccU32 _ => encode .ccU32
  | .command .ccF64 _ => encode .ccF64
  | .command .hybrid _ => encode .hybrid
  | .command .drawMain _ => encode .drawMain
  | .command .drawPb _ => encode .drawPb
  | .word v => [BitVec.ofNat 32 v]
  | .pseudo p n => encodeAll (pseudoExpand p n)

/-- R68: a line is read, checked and turned into words, or rejected. -/
def assembleLine (line : List Char) : Option (List Word) :=
  match readLine line with
  | none => none
  | some l => if l.wf then some (lineWords l) else none

/-- R68: an assembly text, line by line; rejected when one line is. -/
def assemble : List (List Char) → Option (List Word)
  | [] => some []
  | l :: ls =>
    match assembleLine l, assemble ls with
    | some ws, some rest => some (ws ++ rest)
    | _, _ => none

/-- The character of a hexadecimal digit. -/
def hexDigit (d : Nat) : Char := if d < 10 then Char.ofNat (48 + d) else Char.ofNat (55 + d)

/-- `0x` and the eight hexadecimal digits of a word (R69). -/
def hexWord (w : Word) : List Char :=
  ['0', 'x', hexDigit (w.toNat / 16 ^ 7 % 16), hexDigit (w.toNat / 16 ^ 6 % 16),
    hexDigit (w.toNat / 16 ^ 5 % 16), hexDigit (w.toNat / 16 ^ 4 % 16),
    hexDigit (w.toNat / 16 ^ 3 % 16), hexDigit (w.toNat / 16 ^ 2 % 16),
    hexDigit (w.toNat / 16 % 16), hexDigit (w.toNat % 16)]

/-- R69: the line of a word that is no command. -/
def wordLine (w : Word) : List Char := wordDirective ++ ' ' :: hexWord w

/-- The line of a command; MT.SEED's operand word is printed as its operand (R69). -/
def instrLine : Instr → List Char
  | .mtSeed seed => opcodeName .mtSeed ++ ' ' :: hexWord seed
  | .init => opcodeName .init
  | .mtU32 => opcodeName .mtU32
  | .mtF64 => opcodeName .mtF64
  | .ccU32 => opcodeName .ccU32
  | .ccF64 => opcodeName .ccF64
  | .hybrid => opcodeName .hybrid
  | .drawMain => opcodeName .drawMain
  | .drawPb => opcodeName .drawPb

/-- R69: the lines of a word sequence. `seed` holds the MT.SEED word that awaits its operand; left
without one at the end of the sequence, it is printed as a raw word (log entry 12). -/
def disassembleFrom : Option Word → List Word → List (List Char)
  | none, [] => []
  | some w, [] => [wordLine w]
  | some _, w :: ws => instrLine (.mtSeed w) :: disassembleFrom none ws
  | none, w :: ws =>
    match decode [w] with
    | .instr i _ => instrLine i :: disassembleFrom none ws
    | .operandMissing => disassembleFrom (some w) ws
    | .illegalCommand | .noWord => wordLine w :: disassembleFrom none ws

/-- R69: the disassembler. -/
def disassemble (ws : List Word) : List (List Char) := disassembleFrom none ws

end Sys2Proof.Machine
end

