-- ==== Sys2Proof/Machine/HostPort.lean ====
section
/-! DEFINITION. The host's side of the interface (R20, R22, R50, R60, R173, R180): reading registers, presenting command
words, answering queries, asserting reset. A read changes nothing (R49). -/

namespace Sys2Proof.Machine

/-- R25, R49: the host reads STATUS. -/
def readStatus (s : State) : Word := statusWord s

/-- R21, R50: the host reads `RES[k]`. -/
def readRes (s : State) (k : Fin 5) : Word := s.res[k]

/-- R22, R50: the host reads RESF as one 64-bit value. -/
def readResf (s : State) : Bits64 := s.resf

/-- R22: `RESF_LO`, bits 31:0. -/
def readResfLo (s : State) : Word := s.resf.extractLsb' 0 32

/-- R22: `RESF_HI`, bits 63:32. -/
def readResfHi (s : State) : Word := s.resf.extractLsb' 32 32

/-- R189: the value a host puts together from two half reads, the high half read of one state and the
low half of another. -/
def joinResfHalves (hiRead loRead : State) : Bits64 := readResfHi hiRead ++ readResfLo loRead

/-- What the host can do to the block between its steps (R173, R183). -/
inductive HostAction where
  /-- R60: present the next word of the command stream. -/
  | present (w : Word)
  /-- R13: settle the answer of a `HostWeak()` query still to come. -/
  | answerWeak (a : Option Bits64)
  /-- R13: settle the answer of a `HostTimeMs()` query still to come. -/
  | answerTime (t : Bits64)
  /-- R180: assert reset, at any time. -/
  | reset
  deriving DecidableEq, Repr

/-- The state after a host action. -/
def hostAct (a : HostAction) (s : State) : State :=
  match a with
  | .present w => { s with stream := s.stream ++ [w] }
  | .answerWeak r => { s with weakAnswers := s.weakAnswers ++ [r] }
  | .answerTime t => { s with timeAnswers := s.timeAnswers ++ [t] }
  | .reset => s.assertReset

end Sys2Proof.Machine
end

