-- ==== Sys2Proof/Safety.lean ====
section
/-! DEFINITION. The terms claims are stated in: how a run ends (R186), what a hang is (R148), the state invariant (R24,
R31, R33, R34, R37) and the states that steps and host actions reach. -/

namespace Sys2Proof.Machine

/-- The next state of an outcome, where there is one. -/
def nextState : Host.Outcome State Fault Refusal → Option State
  | .next s => some s
  | .fault _ => none
  | .refused _ => none

/-- R186 (a) to (c): the states in which a run has ended. A hang (d) is no state but an infinite run
(`Hangs`). -/
inductive RunEnd where
  | final
  | faulted
  | awaitingOperand
  deriving DecidableEq, Repr

/-- R186: how a run stands at a state; none while the block still has a step. -/
def runEnd (s : State) : Option RunEnd :=
  if s.fault.isSome then some .faulted
  else if s.busy then none
  else
    match s.stream[s.cpos]? with
    | none => some .final
    | some w =>
      if w = Opcode.word .mtSeed ∧ s.stream[s.cpos + 1]? = none then some .awaitingOperand
      else none

/-- R186: a run that ends well, after `k` steps, in a final state. -/
def FinishesIn (k : Nat) (s t : State) : Prop :=
  Host.Core.run Sys2Proof.core k s = .next t ∧ runEnd t = some .final

/-- Up to `n` draw steps of a DRAW.MAIN; once it is no longer busy the state stays. -/
def drawRun (P : Params) : Nat → State → State
  | 0, s => s
  | n + 1, s => drawRun P n (if s.busy then drawStep P s else s)

/-- R148, R186 (d): a hang, an infinite run of draw steps. -/
def Hangs (P : Params) (s : State) : Prop := ∀ n, (drawRun P n s).busy = true

/-- The stream-cipher state after `n` draws of `nextF64` from `c`. -/
def ccAfter (P : Params) (c : CcState) : Nat → CcState
  | 0 => c
  | n + 1 => (P.cc.nextF64 (ccAfter P c n)).2

/-- R142: the first `n` candidates a DRAW.MAIN started at `c` looks at. -/
def candidates (P : Params) (c : CcState) (n : Nat) : List Nat :=
  (List.range n).map fun k => candidate P (ccAfter P c k)

/-- The MT state after `k` extractions (R99). -/
def mtAfter (m : MtState) : Nat → MtState
  | 0 => m
  | k + 1 => (mtNext (mtAfter m k)).2

/-- The array after `n` twists (R97). -/
def twisted (mt : Vector Word 624) : Nat → Vector Word 624
  | 0 => mt
  | n + 1 => twistWords (twisted mt n)

/-- A magnitude, in units of 2^-1074, that binary64 holds exactly but for overflow: at most 53
significant bits. -/
def Representable (u : Nat) : Prop := ∃ m e, m < 2 ^ 53 ∧ u = m * 2 ^ e

/-- What every step and every host action keeps true of the block. -/
structure Inv (s : State) : Prop where
  /-- R31, R37: the cursor is in [0, 624]. -/
  mtiRange : ∀ m, s.mt = some m → m.mti ≤ 624
  /-- R33: the pool is empty. -/
  poolEmpty : s.pool = []
  /-- R37: a busy block has a keyed stream cipher. -/
  busyKeyed : s.busy = true → s.cc.isSome = true
  /-- R37: a busy block has not faulted. -/
  busyNoFault : s.busy = true → s.fault = none
  /-- R24, R28: a busy block's cpos is at the word of the DRAW.MAIN under way. -/
  busyAtDrawMain : s.busy = true → s.stream[s.cpos]? = some (Opcode.word .drawMain)
  /-- R34, R37: fewer than five values are accepted while the iterator has not completed. -/
  accShort : s.acc.length ≤ 4
  /-- R34: the accepted values are distinct. -/
  accDistinct : s.acc.Nodup
  /-- R34: the accepted values lie in 1..69. -/
  accRange : ∀ k ∈ s.acc, 1 ≤ k ∧ k ≤ 69
  /-- R142: every accepted value was drawn. -/
  accDrawn : s.acc.length ≤ s.ndraw
  /-- R34: the iterator is clear unless a DRAW.MAIN is under way or has faulted. -/
  iteratorClear : s.busy = false → s.fault = none → s.acc = [] ∧ s.ndraw = 0
  /-- R144: no more draws are made than `MAX_DRAWS` allows. -/
  drawsBounded : ∀ l, Config.params.maxDraws = some l → s.ndraw ≤ l
  /-- R24, R60: only words that are there are consumed. -/
  cposInStream : s.cpos ≤ s.stream.length

/-- The states the block comes to from reset, through its own steps and the host's actions. -/
inductive Reachable : State → Prop where
  | reset : Reachable State.reset
  | step {s t : State} : Reachable s → step s = .next t → Reachable t
  | host {s : State} (a : HostAction) : Reachable s → Reachable (hostAct a s)

end Sys2Proof.Machine
end

