-- ==== Sys2Proof/Certificates/Slice0/Obligations.lean ====
section
/-! DEFINITION. The statements about the block, for the provers. -/

open Sys2Proof Sys2Proof.Machine

/-! ### Encoding and decoding (30_encoding.md) -/

/-- R67, which the spec marks as derived from R63 and R66: every command's words decode to it and to
nothing else, two commands of different opcodes share no command word, and a sequence of words parses
in one way. -/
def Obligations.DecodeAndEncodeAgree : Prop :=
  (∀ (ws : List Word) (i : Instr) (rest : List Word),
      decode ws = .instr i rest ↔ ws = encode i ++ rest) ∧
    (∀ i j : Instr, (encode i).head? = (encode j).head? → i.opcode = j.opcode) ∧
    ∀ is js : List Instr, encodeAll is = encodeAll js → is = js

/-- R66: the length of a command follows from its `OPC` alone, 2 words for 0x02 and 1 word for every
other legal value; an illegal word is illegal whatever follows it. -/
def Obligations.LengthFollowsFromOpcode : Prop :=
  (∀ (w : Word) (rest : List Word) (i : Instr) (r : List Word), decode (w :: rest) = .instr i r →
      (encode i).length = (if opcField w = 0x02 then 2 else 1) ∧
        (w :: rest).length = r.length + (if opcField w = 0x02 then 2 else 1)) ∧
    ∀ (w : Word) (rest rest' : List Word), decode (w :: rest) = .illegalCommand →
      decode (w :: rest') = .illegalCommand

/-- R65: a reserved word at cpos faults with ILLEGAL_COMMAND (0x01), nothing else is written and cpos
stays; exactly the words of R65 are reserved, so there are no hints and no no-op. -/
def Obligations.ReservedWordsFault : Prop :=
  (∀ (s : State) (w : Word) (rest : List Word), s.fault = none → s.busy = false →
      s.stream.drop s.cpos = w :: rest →
      (rsvdField w ≠ 0 ∨ opcField w = 0x00 ∨ 0x0A ≤ (opcField w).toNat) →
      step s = .next { s with fault := some .illegalCommand }) ∧
    Cause.code .illegalCommand = 0x01 ∧
    ∀ (w : Word) (rest : List Word), decode (w :: rest) = .illegalCommand →
      rsvdField w ≠ 0 ∨ opcField w = 0x00 ∨ 0x0A ≤ (opcField w).toNat

/-- R64: what the block does at a command boundary, for every word at cpos. -/
def Obligations.DecodeAtCommandBoundary : Prop :=
  ∀ s : State, s.fault = none → s.busy = false →
    match s.stream.drop s.cpos with
    | [] => step s = .fault .noCommandWord
    | w :: rest =>
      if w.extractLsb' 8 24 ≠ 0#24 then step s = .next (s.raise .illegalCommand)
      else
        match (w.extractLsb' 0 8).toNat with
        | 0x01 => step s = exec .init s
        | 0x02 =>
          match rest with
          | [] => step s = .fault .operandMissing
          | seed :: _ => step s = exec (.mtSeed seed) s
        | 0x03 => step s = exec .mtU32 s
        | 0x04 => step s = exec .mtF64 s
        | 0x05 => step s = exec .ccU32 s
        | 0x06 => step s = exec .ccF64 s
        | 0x07 => step s = exec .hybrid s
        | 0x08 => step s = exec .drawMain s
        | 0x09 => step s = exec .drawPb s
        | _ => step s = .next (s.raise .illegalCommand)

/-- R70, which the spec marks as derived from R61 to R63: the encoding examples, from assembly text
to words, and what the words decode to. -/
def Obligations.EncodingExamples : Prop :=
  assembleLine "INIT".toList = some [0x00000001] ∧
    assembleLine "MT.SEED 5489".toList = some [0x00000002, 0x00001571] ∧
    assembleLine "MT.SEED 0xFFFFFFFF".toList = some [0x00000002, 0xFFFFFFFF] ∧
    assembleLine "MT.U32".toList = some [0x00000003] ∧
    assembleLine "MT.F64".toList = some [0x00000004] ∧
    assembleLine "CC.U32".toList = some [0x00000005] ∧
    assembleLine "CC.F64".toList = some [0x00000006] ∧
    assembleLine "HYBRID".toList = some [0x00000007] ∧
    assembleLine "DRAW.MAIN".toList = some [0x00000008] ∧
    assembleLine "DRAW.PB".toList = some [0x00000009] ∧
    assembleLine ".word 0x00000103".toList = some [0x00000103] ∧
    decode [0x00000001] = .instr .init [] ∧
    decode [0x00000002, 0x00001571] = .instr (.mtSeed 5489) [] ∧
    decode [0x00000002, 0xFFFFFFFF] = .instr (.mtSeed 0xFFFFFFFF) [] ∧
    decode [0x00000003] = .instr .mtU32 [] ∧
    decode [0x00000004] = .instr .mtF64 [] ∧
    decode [0x00000005] = .instr .ccU32 [] ∧
    decode [0x00000006] = .instr .ccF64 [] ∧
    decode [0x00000007] = .instr .hybrid [] ∧
    decode [0x00000008] = .instr .drawMain [] ∧
    decode [0x00000009] = .instr .drawPb [] ∧
    decode [0x00000103] = .illegalCommand

/-- Disassembling any words and assembling the lines gives the words back. The layout of the lines
beyond R69's words is the model's choice (log entry 12). -/
def Obligations.DisassemblyAssemblesBack : Prop :=
  ∀ ws : List Word, assemble (disassemble ws) = some ws

/-- R68: MT.SEED takes exactly one operand in 0..4294967295; every other command takes none. A line is
accepted exactly when it reads as a well-formed term, with that term's words; an operand out of range
or negative is rejected and never wrapped. -/
def Obligations.AssemblerChecksOperands : Prop :=
  (∀ n : Nat, (AsmLine.command .mtSeed (some n)).wf = true ↔ n ≤ 4294967295) ∧
    (AsmLine.command .mtSeed none).wf = false ∧
    (∀ (op : Opcode) (n : Nat), op ≠ .mtSeed → (AsmLine.command op (some n)).wf = false) ∧
    (∀ op : Opcode, op ≠ .mtSeed → (AsmLine.command op none).wf = true) ∧
    (∀ (line : List Char) (l : AsmLine), readLine line = some l → l.wf = false →
      assembleLine line = none) ∧
    (∀ (line : List Char) (l : AsmLine), readLine line = some l → l.wf = true →
      assembleLine line = some (lineWords l)) ∧
    (∀ line : List Char, readLine line = none → assembleLine line = none) ∧
    (∀ (line t a : List Char), tokens line = [t, '-' :: a] → assembleLine line = none) ∧
    (∀ (line t a : List Char) (n : Nat), tokens line = [t, a] → opcodeNamed t = some .mtSeed →
      readNumber a = some n →
      assembleLine line =
        if n ≤ 4294967295 then some [0x00000002, BitVec.ofNat 32 n] else none) ∧
    ∀ n : Nat, n ≤ 4294967295 →
      lineWords (.command .mtSeed (some n)) = [0x00000002, BitVec.ofNat 32 n]

/-- R76: n rounds of a pseudo-instruction are n copies of its commands' words; none for n = 0. -/
def Obligations.PseudoInstructionsExpand : Prop :=
  ∀ n : Nat,
    lineWords (.pseudo .benchMt n) = List.replicate n 0x00000004 ∧
      lineWords (.pseudo .benchCrypto n) = List.replicate n 0x00000006 ∧
      lineWords (.pseudo .benchHybrid n) = List.replicate n 0x00000007 ∧
      lineWords (.pseudo .benchLottery n) = (List.replicate n [0x00000008, 0x00000009]).flatten ∧
      lineWords (.pseudo .mtSkip n) = List.replicate n 0x00000003

/-! ### One step -/

/-- At a command boundary a step is the decoded command's `exec`; a step adds nothing around it, and
cpos is advanced by `exec` itself. -/
def Obligations.StepRunsDecodedCommand : Prop :=
  ∀ (s : State) (i : Instr) (rest : List Word), s.fault = none → s.busy = false →
    decode (s.stream.drop s.cpos) = .instr i rest → step s = exec i s

/-- R164: a halted block has no step, whatever its stream and host answers hold, it is never at a
final state, and what the host presents and answers changes no register the host reads. RES and RESF
read as they did before the fault. -/
def Obligations.HaltedBlockHasNoStep : Prop :=
  (∀ s : State, s.fault ≠ none → step s = .fault .halted ∧ runEnd s ≠ some .final) ∧
    (∀ (s : State) (a : HostAction), s.fault ≠ none → a ≠ .reset →
      readStatus (hostAct a s) = readStatus s ∧
        (∀ k : Fin 5, readRes (hostAct a s) k = readRes s k) ∧
        readResf (hostAct a s) = readResf s ∧ step (hostAct a s) = .fault .halted) ∧
    ∀ (s : State) (c : Cause),
      (∀ k : Fin 5, readRes (s.raise c) k = readRes s k) ∧ readResf (s.raise c) = readResf s

/-- R186: the block has a step exactly when its run has not ended, and each way of having none is one
of the ends of R186. -/
def Obligations.StepsEndAsClassified : Prop :=
  ∀ s : State,
    (runEnd s = some .final ↔ step s = .fault .noCommandWord) ∧
      (runEnd s = some .faulted ↔ step s = .fault .halted) ∧
      (runEnd s = some .awaitingOperand ↔ step s = .fault .operandMissing) ∧
      (runEnd s = none ↔ ∃ t, step s = .next t)

/-- R24: a command that completes advances cpos by its length, a faulting one leaves it at its first
word, DRAW.MAIN's start leaves it there too, and a draw step advances it exactly on completion. -/
def Obligations.CommandPositionMoves : Prop :=
  (∀ (s t : State) (i : Instr), s.fault = none → exec i s = .next t →
      t.cpos = if t.fault ≠ none ∨ i = .drawMain then s.cpos else s.cpos + (encode i).length) ∧
    ∀ (P : Params) (s : State), s.fault = none → s.busy = true →
      (drawStep P s).cpos =
        if (drawStep P s).busy = false ∧ (drawStep P s).fault = none then s.cpos + 1 else s.cpos

/-- R53: no step writes the command stream, and the block sees the words the host presents in their
order, each with no word of the stream changed. -/
def Obligations.StepsKeepTheStream : Prop :=
  (∀ s t : State, step s = .next t → t.stream = s.stream) ∧
    ∀ (s : State) (w : Word), (hostAct (.present w) s).stream = s.stream ++ [w]

/-! ### Reset, STATUS and the invariant (10_state.md, 70_reset_and_hazards.md) -/

/-- R180: reset, from any state at all, gives every element of the block its reset value (R36). -/
def Obligations.ResetSetsEveryElement : Prop :=
  ∀ s : State,
    let t := hostAct .reset s
    t.mt = none ∧ t.cc = none ∧ t.pool = [] ∧ t.acc = [] ∧ t.ndraw = 0 ∧ t.busy = false ∧
      t.fault = none ∧ (∀ k : Fin 5, readRes t k = 0) ∧ t.resf = 0 ∧ t.cpos = 0 ∧
      statusWord t = 0 ∧ t.weakQueries = s.weakQueries ∧ t.timeQueries = s.timeQueries

/-- R25: the layout of STATUS, its value at reset, and that the host writes none of it (reset aside).
The codes that CAUSE holds are those of R160, each under its own cause. -/
def Obligations.StatusRegisterLayout : Prop :=
  (∀ s : State,
      (statusWord s).getLsbD 0 = s.mt.isSome ∧ (statusWord s).getLsbD 1 = s.cc.isSome ∧
        (statusWord s).getLsbD 2 = s.busy ∧ (statusWord s).getLsbD 3 = s.fault.isSome ∧
        (statusWord s).extractLsb' 4 4 = 0#4 ∧ (statusWord s).extractLsb' 16 16 = 0#16 ∧
        (∀ c, s.fault = some c → (statusWord s).extractLsb' 8 8 = c.code) ∧
        (s.fault = none → (statusWord s).extractLsb' 8 8 = 0#8)) ∧
    Cause.code .illegalCommand = 0x01 ∧ Cause.code .mtNotSeeded = 0x02 ∧
    Cause.code .ccNotKeyed = 0x03 ∧ Cause.code .entropyUnavailable = 0x04 ∧
    Cause.code .entropyRange = 0x05 ∧ Cause.code .drawLimit = 0x06 ∧
    statusWord State.reset = 0 ∧
    ∀ (a : HostAction) (s : State), a ≠ .reset → readStatus (hostAct a s) = readStatus s

/-- R26: what sets MT_VALID, what clears it, and which commands fault while it is 0. -/
def Obligations.MtValidLifecycle : Prop :=
  (∀ s t : State, exec .init s = .next t → t.fault = none → mtValid t = true) ∧
    (∀ (seed : Word) (s t : State), exec (.mtSeed seed) s = .next t → mtValid t = true) ∧
    (∀ s t : State, step s = .next t → mtValid s = true → mtValid t = true) ∧
    (∀ s t : State, step s = .next t → mtValid s = false → mtValid t = true →
      ∃ i rest, fetch s = .instr i rest ∧ (i = .init ∨ ∃ seed, i = .mtSeed seed)) ∧
    (∀ (a : HostAction) (s : State), mtValid (hostAct a s) = (if a = .reset then false else mtValid s)) ∧
    ∀ (s : State) (i : Instr), mtValid s = false → i ∈ [.mtU32, .mtF64, .hybrid, .drawPb] →
      exec i s = .next (s.raise .mtNotSeeded)

/-- R27: what sets CC_VALID, what clears it, and which commands fault while it is 0. HYBRID and
DRAW.PB look at MT_VALID first (R163). -/
def Obligations.CcValidLifecycle : Prop :=
  (∀ s t : State, exec .init s = .next t → t.fault = none → ccValid t = true) ∧
    (∀ (seed : Word) (s t : State), exec (.mtSeed seed) s = .next t → ccValid t = ccValid s) ∧
    (∀ s t : State, step s = .next t → ccValid s = true → ccValid t = true) ∧
    (∀ s t : State, step s = .next t → ccValid s = false → ccValid t = true →
      ∃ rest, fetch s = .instr .init rest) ∧
    (∀ (a : HostAction) (s : State), ccValid (hostAct a s) = (if a = .reset then false else ccValid s)) ∧
    (∀ (s : State) (i : Instr), ccValid s = false → i ∈ [.ccU32, .ccF64, .drawMain] →
      exec i s = .next (s.raise .ccNotKeyed)) ∧
    ∀ (s : State) (i : Instr), ccValid s = false → mtValid s = true → i ∈ [.hybrid, .drawPb] →
      exec i s = .next (s.raise .ccNotKeyed)

/-- R28: BUSY is set by DRAW.MAIN's start and by nothing else, while it is 1 the block takes draw
steps and no command, and a draw step that does not fault leaves it 1 exactly while five values are
not yet collected. -/
def Obligations.BusyWhileDrawing : Prop :=
  (∀ s t : State, exec .drawMain s = .next t → t.fault = none → t.busy = true) ∧
    (∀ s t : State, step s = .next t → s.busy = false → t.busy = true →
      ∃ rest, fetch s = .instr .drawMain rest) ∧
    (∀ s : State, s.fault = none → s.busy = true → step s = .next (drawStep Config.params s)) ∧
    ∀ (P : Params) (s : State) (c : CcState), s.busy = true → s.fault = none → s.cc = some c →
      (drawStep P s).fault = none →
      ((drawStep P s).busy = true ↔ (accept s.acc (candidate P c)).length ≠ 5)

/-- The state invariant holds right after reset. -/
def Obligations.ResetMeetsTheInvariant : Prop := Inv State.reset

/-- R37, which the spec marks as derived, and more: every step keeps the state invariant. -/
def Obligations.StepsKeepTheInvariant : Prop := ∀ s t : State, Inv s → step s = .next t → Inv t

/-- Every host action keeps the state invariant, so every reachable state meets it. -/
def Obligations.ReachableStatesMeetTheInvariant : Prop :=
  (∀ (a : HostAction) (s : State), Inv s → Inv (hostAct a s)) ∧ ∀ s : State, Reachable s → Inv s

/-! ### Faults (60_exceptions.md) -/

/-- The effect of a fault (R162), the same from any command. It writes FAULT, CAUSE and BUSY and
nothing else of the block, whether it is raised at decode, at a command's checks or at a draw step,
and the block is halted. That a weak-source query made by the checks of R84 or R130 is used up by the
fault is the model's choice (log entry 4): it changes the model's own fields only. -/
def Obligations.FaultsArePrecise : Prop :=
  (∀ (s : State) (c : Cause), s.raise c = { s with fault := some c, busy := false } ∧
      (statusWord (s.raise c)).getLsbD 3 = true ∧
      (statusWord (s.raise c)).extractLsb' 8 8 = c.code ∧
      (statusWord (s.raise c)).getLsbD 2 = false ∧ step (s.raise c) = .fault .halted) ∧
    (∀ s : State, s.fault = none → s.busy = false → fetch s = .illegalCommand →
      step s = .next (s.raise .illegalCommand)) ∧
    (∀ (i : Instr) (s t : State), s.fault = none → exec i s = .next t → t.fault ≠ none →
      ∃ c, t = s.raise c ∨ t = s.queriedWeak.raise c) ∧
    ∀ (P : Params) (s : State), s.fault = none → (drawStep P s).fault ≠ none →
      ∃ c, drawStep P s = s.raise c

/-- The fault order of the combiner's commands (R163): the first condition that holds is reported,
and the host is not queried before both engines are known to be valid. -/
def Obligations.CombinerFaultPriority : Prop :=
  ∀ (s : State) (i : Instr), i = .hybrid ∨ i = .drawPb →
    (s.mt = none → exec i s = .next (s.raise .mtNotSeeded)) ∧
      (s.mt ≠ none → s.cc = none → exec i s = .next (s.raise .ccNotKeyed)) ∧
      (s.mt ≠ none → s.cc ≠ none → weakAnswer s = none →
        exec i s = .next (s.queriedWeak.raise .entropyUnavailable)) ∧
      (∀ b, s.mt ≠ none → s.cc ≠ none → weakAnswer s = some b → (F64.ofBits b).inUnit = false →
        exec i s = .next (s.queriedWeak.raise .entropyRange))

/-- INIT faults before it reads the time, when the weak source gives no value or one that is NaN or
outside [0.0, 1.0). -/
def Obligations.InitFaultsOnBadEntropy : Prop :=
  ∀ s : State,
    (weakAnswer s = none → exec .init s = .next (s.queriedWeak.raise .entropyUnavailable)) ∧
      ∀ b, weakAnswer s = some b → (F64.ofBits b).inUnit = false →
        exec .init s = .next (s.queriedWeak.raise .entropyRange)

/-- R23, as frames: what a completed command leaves unchanged. -/
def Obligations.CommandFrames : Prop :=
  ∀ (i : Instr) (s t : State), exec i s = .next t → t.fault = none →
    (i ∉ [.mtU32, .ccU32, .drawPb] → t.res = s.res) ∧
      (∀ k : Fin 5, k ≠ 0 → readRes t k = readRes s k) ∧
      (i ∉ [.mtF64, .ccF64, .hybrid] → t.resf = s.resf) ∧
      (i ∈ [.ccU32, .ccF64, .drawMain] → t.mt = s.mt) ∧
      (i ∉ [.init, .ccU32, .ccF64, .hybrid, .drawPb] → t.cc = s.cc) ∧
      (i ≠ .init → t.pool = s.pool) ∧
      (i ≠ .drawMain → t.acc = s.acc ∧ t.ndraw = s.ndraw ∧ t.busy = s.busy) ∧
      t.stream = s.stream ∧
      (i ∉ [.init, .hybrid, .drawPb] → t.weakAnswers = s.weakAnswers ∧
        t.weakQueries = s.weakQueries) ∧
      (i ≠ .init → t.timeAnswers = s.timeAnswers ∧ t.timeQueries = s.timeQueries)

/-! ### Construction (40_seed_derivation.md) -/

/-- INIT constructs the engine: from a weak reading in [0.0, 1.0) and the time it seeds both engines,
empties the pool, and writes no result register. -/
def Obligations.InitConstructsTheEngine : Prop :=
  ∀ (s : State) (b : Bits64), weakAnswer s = some b → (F64.ofBits b).inUnit = true →
    let seed : Word :=
      scale32 (F64.ofBits b) ^^^ (timeAnswer s).extractLsb' 0 32
    exec .init s = .next
      { s with
        mt := some (mtSeed seed)
        cc := some (Config.params.cc.init (deriveKey seed))
        pool := []
        cpos := s.cpos + 1
        weakAnswers := s.weakAnswers.tail
        weakQueries := s.weakQueries + 1
        timeAnswers := s.timeAnswers.tail
        timeQueries := s.timeQueries + 1 }

/-- R80, whose range the spec marks as derived: over every reading in [0.0, 1.0) the scaled word is
the product truncated toward zero, and it lies in 0..4294967294. -/
def Obligations.ScaledSampleRange : Prop :=
  ∀ b : Bits64, (F64.ofBits b).inUnit = true →
    ((scale32 (F64.ofBits b)).toNat : Int) =
        (fmul (F64.ofBits b) (F64.ofNat 4294967295)).trunc ∧
      (scale32 (F64.ofBits b)).toNat ≤ 4294967294

/-- R47, R82: byte j of key group i is bits 8j+7:8j of `s * (i + 1)` modulo 2^32, so each group is
little-endian. -/
def Obligations.KeyGroupsAreLittleEndian : Prop :=
  ∀ (s : Word) (i : Fin 8) (j : Fin 4),
    (deriveKey s)[4 * i.val + j.val]? =
      some ((s * BitVec.ofNat 32 (i.val + 1)).extractLsb' (8 * j.val) 8)

/-- R184, which the spec marks as derived from R84 and R102: the order of construction commands. INIT
then MT.SEED keeps INIT's keyed stream cipher and takes the explicit seed. The last clause compares two
runs that are given the same host answers, which is the model's choice (log entry 4, its unsafe case)
and not R184's: under those answers MT.SEED then INIT leaves what INIT alone leaves, but for cpos. -/
def Obligations.ConstructionOrder : Prop :=
  ∀ (s t u : State) (seed : Word), exec .init s = .next t → t.fault = none →
    (exec (.mtSeed seed) t = .next u → u.cc = t.cc ∧ u.mt = some (mtSeed seed)) ∧
      ∀ v, exec (.mtSeed seed) s = .next u → exec .init u = .next v →
        v = { t with cpos := t.cpos + 2 }

/-! ### The MT19937 engine (41_mt19937.md) -/

/-- R95: the initialization recurrence, word by word, and the cursor it leaves. -/
def Obligations.SeedingRecurrence : Prop :=
  ∀ seed : Word,
    (mtSeed seed).words[0]? = some seed ∧
      (∀ (i : Nat) (prev : Word), i + 1 < 624 → (mtSeed seed).words[i]? = some prev →
        (mtSeed seed).words[i + 1]? =
          some (1812433253#32 * (prev ^^^ (prev >>> 30)) + BitVec.ofNat 32 (i + 1))) ∧
      (mtSeed seed).mti = 624

/-- R97, R98: the twisted array, each word from the words as the earlier iterations left them; the
cursor becomes 0. -/
def Obligations.TwistIsInPlace : Prop :=
  ∀ (m : MtState) (i : Nat), i < 624 →
    let t := (twist m).words
    let next : Word := if i = 623 then wordAt t 0 else wordAt m.words (i + 1)
    let far : Word := if i < 227 then wordAt m.words (i + 397) else wordAt t (i - 227)
    let y : Word := (wordAt m.words i &&& 0x80000000#32) ||| (next &&& 0x7FFFFFFF#32)
    (twist m).mti = 0 ∧
      wordAt t i = (far ^^^ (y >>> 1)) ^^^ (if y.getLsbD 0 then 0x9908B0DF#32 else 0#32)

/-- R99: extraction. Below cursor 624 it reads the word there and advances; at 624 it twists first,
reads word 0 and leaves the cursor at 1. It writes the array only through the twist. -/
def Obligations.ExtractionReadsAtCursor : Prop :=
  ∀ m : MtState,
    (∀ h : m.mti < 624, mtNext m = (temper m.words[m.mti], { m with mti := m.mti + 1 })) ∧
      (624 ≤ m.mti → mtNext m = (temper (twist m).words[0], { twist m with mti := 1 }))

/-- R100: the four steps of the tempering transform; it is a bijection (which the spec marks as
derived) and keeps 0. -/
def Obligations.TemperingIsABijection : Prop :=
  (∀ y : Word,
      let a := y ^^^ (y >>> 11)
      let b := a ^^^ ((a <<< 7) &&& 0x9D2C5680#32)
      let c := b ^^^ ((b <<< 15) &&& 0xEFC60000#32)
      temper y = c ^^^ (c >>> 18)) ∧
    Function.Bijective temper ∧ temper 0 = 0

/-- R101, whose range facts the spec marks as derived from R11: normalization. 0 gives +0.0 and
0xFFFFFFFF gives 1.0; every other word gives a finite normal value strictly between, and none smaller
than `u01(1)`. -/
def Obligations.NormalizationRange : Prop :=
  u01 0 = .fin false 0 ∧ u01 0xFFFFFFFF = F64.ofNat 1 ∧
    ∀ n : Word, u01 n = fdiv (F64.ofNat n.toNat) (F64.ofNat 4294967295) ∧
      (n ≠ 0 → n ≠ 0xFFFFFFFF →
        ∃ u v, u01 n = .fin false u ∧ u01 1 = .fin false v ∧ 2 ^ 52 ≤ v ∧ v ≤ u ∧ u < unitsOfOne)

/-- MT.SEED re-seeds the MT engine with the operand word as it is, from every state, and touches
nothing else; it never faults. -/
def Obligations.MtSeedReseeds : Prop :=
  ∀ (s : State) (seed : Word),
    exec (.mtSeed seed) s = .next { s with mt := some (mtSeed seed), cpos := s.cpos + 2 }

/-- MT.U32 writes the next tempered word to RES[0]. -/
def Obligations.MtU32Extracts : Prop :=
  ∀ (s : State) (m : MtState), s.mt = some m →
    exec .mtU32 s = .next
      { s with mt := some (mtNext m).2, res := s.res.set 0 (mtNext m).1, cpos := s.cpos + 1 }

/-- MT.F64 writes the next tempered word, normalized, to RESF. -/
def Obligations.MtF64Extracts : Prop :=
  ∀ (s : State) (m : MtState), s.mt = some m →
    exec .mtF64 s = .next
      { s with mt := some (mtNext m).2, resf := (u01 (mtNext m).1).bits64, cpos := s.cpos + 1 }

/-- R107, which the spec marks as derived from R101: every value MT.F64 writes lies in [0.0, 1.0]; it
is 1.0 exactly for the word 0xFFFFFFFF and +0.0 exactly for the word 0. -/
def Obligations.MtF64Range : Prop :=
  ∀ (s t : State) (m : MtState), s.mt = some m → exec .mtF64 s = .next t →
    t.resf.toNat ≤ 0x3FF0000000000000 ∧
      (t.resf = 0x3FF0000000000000#64 ↔ (mtNext m).1 = 0xFFFFFFFF) ∧
      (t.resf = 0x0000000000000000#64 ↔ (mtNext m).1 = 0)

/-- R105, which the spec marks as derived from R96, R97 and R99: extraction number k after seeding
twists exactly when k mod 624 = 1, and gives the tempered word (k - 1) mod 624 of the ((k - 1) div
624 + 1)-th twisted array. -/
def Obligations.ExtractionSequence : Prop :=
  ∀ (seed : Word) (k : Nat), 1 ≤ k →
    (624 ≤ (mtAfter (mtSeed seed) (k - 1)).mti ↔ k % 624 = 1) ∧
      some (mtNext (mtAfter (mtSeed seed) (k - 1))).1 =
        ((twisted (mtSeed seed).words ((k - 1) / 624 + 1))[(k - 1) % 624]?).map temper

/-! ### The stream cipher (42_stream_cipher.md) and the combiner (43_hybrid_combiner.md) -/

/-- CC.U32 writes one stream-cipher word to RES[0] and keeps the successor state. -/
def Obligations.CcU32Extracts : Prop :=
  ∀ (s : State) (c : CcState), s.cc = some c →
    exec .ccU32 s = .next
      { s with
        cc := some (Config.params.cc.nextU32 c).2
        res := s.res.set 0 (Config.params.cc.nextU32 c).1
        cpos := s.cpos + 1 }

/-- CC.F64 writes one stream-cipher value to RESF and keeps the successor state. -/
def Obligations.CcF64Extracts : Prop :=
  ∀ (s : State) (c : CcState), s.cc = some c →
    exec .ccF64 s = .next
      { s with
        cc := some (Config.params.cc.nextF64 c).2
        resf := (Config.params.cc.nextF64 c).1.bits
        cpos := s.cpos + 1 }

/-- The values of `nextF64` are, by their type, exactly those the law of R8 (a) allows: the binary64
values x with 0.0 <= x < 1.0 and not NaN. By encoding these are the ones with sign 0 below 1.0's, and
-0.0. So RESF is never 1.0 after CC.F64. -/
def Obligations.CcValuesAreTheUnitInterval : Prop :=
  (∀ b : Bits64, (F64.ofBits b).inUnit = true ↔
      b.toNat < 0x3FF0000000000000 ∨ b = 0x8000000000000000#64) ∧
    (∀ b : Bits64, (F64.ofBits b).inUnit = true ↔ ∃ x : UnitF64, x.bits = b) ∧
    ∀ (s t : State), s.cc ≠ none → exec .ccF64 s = .next t →
      (F64.ofBits t.resf).inUnit = true ∧ t.resf ≠ 0x3FF0000000000000#64

/-- HYBRID combines one value of each engine and the scaled weak sample by XOR, and normalizes. -/
def Obligations.HybridCombines : Prop :=
  ∀ (s : State) (m : MtState) (c : CcState) (b : Bits64), s.mt = some m → s.cc = some c →
    weakAnswer s = some b → (F64.ofBits b).inUnit = true →
    let h : Word :=
      (Config.params.cc.nextU32 c).1 ^^^ (mtNext m).1 ^^^ scale32 (F64.ofBits b)
    exec .hybrid s = .next
      { s with
        cc := some (Config.params.cc.nextU32 c).2
        mt := some (mtNext m).2
        resf := (u01 h).bits64
        cpos := s.cpos + 1
        weakAnswers := s.weakAnswers.tail
        weakQueries := s.weakQueries + 1 }

/-- R132, which the spec marks as derived from R130, R131 and R101: every value HYBRID writes lies in
[0.0, 1.0], and it is 1.0 exactly when the combined word is 0xFFFFFFFF; for every CC, MT state and
weak reading. -/
def Obligations.HybridRange : Prop :=
  ∀ (P : Params) (s t : State) (h : Word), hybridWord P s = .word h t →
    (hybrid P s).fault = s.fault ∧ (hybrid P s).resf.toNat ≤ 0x3FF0000000000000 ∧
      ((hybrid P s).resf = 0x3FF0000000000000#64 ↔ h = 0xFFFFFFFF)

/-! ### The constrained sampler (44_constrained_sampler.md) -/

/-- R140, whose range the spec marks as derived: `main_index` is the floor of the rounded product
plus 1. It lies in 1..69 over the domain of the CC law, and at fl(k/69) it is k, not k + 1, for k =
11, 22, 44 and 63. -/
def Obligations.MainIndexRange : Prop :=
  (∀ b : Bits64, (F64.ofBits b).inUnit = true →
      (mainIndex (F64.ofBits b) : Int) = (fmul (F64.ofBits b) (F64.ofNat 69)).floor + 1 ∧
        1 ≤ mainIndex (F64.ofBits b) ∧ mainIndex (F64.ofBits b) ≤ 69) ∧
    ∀ k ∈ [11, 22, 44, 63], mainIndex (fdiv (F64.ofNat k) (F64.ofNat 69)) = k

/-- R146, whose range the spec marks as derived: `pb_index` is the floor of the rounded product plus
1, over [0.0, 1.0]. Of a normalized word it is 1..26, but 27 for the word 0xFFFFFFFF; the smallest
word that gives 2 is 0x09D89D8A. -/
def Obligations.PbIndexRange : Prop :=
  (∀ b : Bits64, (F64.ofBits b).inUnit = true ∨ F64.ofBits b = F64.ofNat 1 →
      (pbIndex (F64.ofBits b) : Int) = (fmul (F64.ofBits b) (F64.ofNat 26)).floor + 1) ∧
    (∀ h : Word, (pbIndex (u01 h) : Int) = (fmul (u01 h) (F64.ofNat 26)).floor + 1 ∧
      (h ≠ 0xFFFFFFFF → 1 ≤ pbIndex (u01 h) ∧ pbIndex (u01 h) ≤ 26)) ∧
    pbIndex (u01 0xFFFFFFFF) = 27 ∧ pbIndex (u01 0x09D89D8A) = 2 ∧
    ∀ h : Word, h.toNat < 0x09D89D8A → pbIndex (u01 h) = 1

/-- DRAW.MAIN's start step clears the iterator and sets BUSY; it needs the stream cipher alone. -/
def Obligations.DrawMainStarts : Prop :=
  ∀ s : State, s.cc ≠ none →
    exec .drawMain s = .next { s with acc := [], ndraw := 0, busy := true }

/-- One draw step, and DRAW.MAIN's completion on the fifth distinct value, for every CC and
MAX_DRAWS; a busy block that has not faulted takes exactly this step. -/
def Obligations.DrawStepDrawsOneCandidate : Prop :=
  (∀ s : State, s.fault = none → s.busy = true → step s = .next (drawStep Config.params s)) ∧
    ∀ (P : Params) (s : State) (c : CcState), s.cc = some c →
      (∀ l, P.maxDraws = some l → s.ndraw < l) →
      let k : Nat :=
        ((fmul (F64.ofBits (P.cc.nextF64 c).1.bits) (F64.ofNat 69)).floor + 1).toNat
      let acc' : List Nat := if k ∈ s.acc then s.acc else s.acc ++ [k]
      drawStep P s =
        if acc'.length = 5 then
          { s with
            cc := some (P.cc.nextF64 c).2
            acc := []
            ndraw := 0
            busy := false
            res := sortedResults acc'
            cpos := s.cpos + 1 }
        else
          { s with cc := some (P.cc.nextF64 c).2, ndraw := s.ndraw + 1, acc := acc' }

/-- R143: the results are the five accepted values in ascending order: the same values, strictly
increasing. -/
def Obligations.CompletionSortsTheValues : Prop :=
  ∀ acc : List Nat, acc.length = 5 → acc.Nodup → (∀ k ∈ acc, k ≤ 69) →
    ((sortedResults acc).toList.map BitVec.toNat).Perm acc ∧
      ((sortedResults acc).toList.map BitVec.toNat).Pairwise (· < ·)

/-- R147, which the spec marks as derived from R140, R142 and R143: when a DRAW.MAIN completes, for
every CC, its results are five integers in 1..69, strictly increasing and so pairwise distinct. -/
def Obligations.DrawMainResults : Prop :=
  ∀ (P : Params) (s : State) (n : Nat), s.fault = none → s.cc ≠ none →
    let t := drawRun P n (drawMainStart s)
    t.busy = false → t.fault = none →
      (∀ k : Fin 5, 1 ≤ (readRes t k).toNat ∧ (readRes t k).toNat ≤ 69) ∧
        (∀ j k : Fin 5, j < k → (readRes t j).toNat < (readRes t k).toNat) ∧
        t.cpos = s.cpos + 1 ∧ t.acc = [] ∧ t.ndraw = 0

/-- R190: while DRAW.MAIN is under way no result register is written, and a draw step touches nothing
of the block but the stream cipher and the iterator. -/
def Obligations.NoResultBeforeCompletion : Prop :=
  ∀ (P : Params) (s : State),
    ((drawStep P s).busy = true → (drawStep P s).res = s.res ∧ (drawStep P s).cpos = s.cpos) ∧
      (drawStep P s).resf = s.resf ∧ (drawStep P s).mt = s.mt ∧ (drawStep P s).pool = s.pool ∧
      (drawStep P s).stream = s.stream ∧ (drawStep P s).weakAnswers = s.weakAnswers ∧
      (drawStep P s).timeAnswers = s.timeAnswers ∧ (drawStep P s).weakQueries = s.weakQueries ∧
      (drawStep P s).timeQueries = s.timeQueries

/-- R144: the draw limit, whose code is 0x06. With `none` a draw step never faults; with `some L` the
step that would make draw L + 1 raises DRAW_LIMIT and writes nothing else, so a DRAW.MAIN is over
after L + 1 steps at most, and for L below 5 it always faults. -/
def Obligations.DrawLimitFaults : Prop :=
  Cause.code .drawLimit = 0x06 ∧
    (∀ (P : Params) (s : State), P.maxDraws = none → s.cc ≠ none →
      (drawStep P s).fault = s.fault) ∧
    (∀ (P : Params) (s : State) (l : Nat), P.maxDraws = some l → s.cc ≠ none → l ≤ s.ndraw →
      drawStep P s = { s with fault := some .drawLimit, busy := false }) ∧
    ∀ (P : Params) (s : State) (l : Nat), P.maxDraws = some l → s.cc ≠ none → s.fault = none →
      (drawRun P (l + 1) (drawMainStart s)).busy = false ∧
        (l < 5 → (drawRun P (l + 1) (drawMainStart s)).fault = some .drawLimit)

/-- R148: with no limit, a stream that yields at most four distinct indices makes the block draw
forever; and a DRAW.MAIN that ends has drawn five distinct indices. -/
def Obligations.HangOnFewIndices : Prop :=
  ∀ (P : Params) (s : State) (c : CcState), P.maxDraws = none → s.fault = none → s.cc = some c →
    ((∃ vals : List Nat, vals.length ≤ 4 ∧ ∀ n, candidate P (ccAfter P c n) ∈ vals) →
        Hangs P (drawMainStart s)) ∧
      ∀ n, (drawRun P n (drawMainStart s)).busy = false →
        5 ≤ (candidates P c n).dedup.length

/-- With no limit and the named premise that the first n candidates hold five distinct indices, a
DRAW.MAIN completes within n draw steps and without a fault. -/
def Obligations.DrawMainCompletesOnFiveIndices : Prop :=
  ∀ (P : Params) (s : State) (c : CcState) (n : Nat), P.maxDraws = none → s.fault = none →
    s.cc = some c → 5 ≤ (candidates P c n).dedup.length →
      (drawRun P n (drawMainStart s)).busy = false ∧ (drawRun P n (drawMainStart s)).fault = none

/-- DRAW.PB maps one combined word to a bonus number in RES[0] and does not touch the iterator. -/
def Obligations.DrawPbDraws : Prop :=
  ∀ (s : State) (m : MtState) (c : CcState) (b : Bits64), s.mt = some m → s.cc = some c →
    weakAnswer s = some b → (F64.ofBits b).inUnit = true →
    let h : Word :=
      (Config.params.cc.nextU32 c).1 ^^^ (mtNext m).1 ^^^ scale32 (F64.ofBits b)
    exec .drawPb s = .next
      { s with
        cc := some (Config.params.cc.nextU32 c).2
        mt := some (mtNext m).2
        res := s.res.set 0
          (BitVec.ofNat 32 ((fmul (u01 h) (F64.ofNat 26)).floor + 1).toNat)
        cpos := s.cpos + 1
        weakAnswers := s.weakAnswers.tail
        weakQueries := s.weakQueries + 1 }

/-! ### Binary64 (00_scope.md R11) and the host port -/

/-- R11, with the range of IEEE 754 (log entry 11): rounding gives a magnitude with at most 53
significant bits, none such is nearer to the exact quotient, and when another is as near the
significand chosen is even. The product and the quotient of two finite data are this rounding of their
exact product and quotient, in units of 2^-1074, with the exclusive or of the signs; a magnitude of
2^1024 or more is an infinity. -/
def Obligations.RoundingIsToNearestEven : Prop :=
  (∀ num den : Nat, 0 < den →
    let r := roundUnits num den
    Representable r ∧
      ∀ r', Representable r' →
        (((num : Int) - r * den).natAbs ≤ ((num : Int) - r' * den).natAbs) ∧
          (r' ≠ r → ((num : Int) - r * den).natAbs = ((num : Int) - r' * den).natAbs →
            2 ∣ r / 2 ^ spacingExp r)) ∧
    (∀ (a b : Bool) (u v : Nat),
      fmul (.fin a u) (.fin b v) = F64.ofRounded (a ^^ b) (roundUnits (u * v) unitsOfOne)) ∧
    (∀ (a b : Bool) (u v : Nat), v ≠ 0 →
      fdiv (.fin a u) (.fin b v) = F64.ofRounded (a ^^ b) (roundUnits (u * unitsOfOne) v)) ∧
    (∀ (neg : Bool) (u : Nat), u < unitsOfOverflow → F64.ofRounded neg u = .fin neg u) ∧
    (∀ (neg : Bool) (u : Nat), unitsOfOverflow ≤ u → F64.ofRounded neg u = .inf neg) ∧
    unitsOfOne = 2 ^ 1074 ∧ unitsOfOverflow = 2 ^ (1074 + 1024)

/-- R11: encoding undoes decoding for every encoding that is not a NaN's. -/
def Obligations.EncodingRoundTrip : Prop :=
  ∀ b : Bits64, F64.ofBits b ≠ .nan → (F64.ofBits b).bits64 = b

/-- R22, R189: RESF is its two halves, and two half reads give it whole when the halves read did not
change in between; otherwise each half is that of its own state. -/
def Obligations.ResfHalves : Prop :=
  ∀ hiRead loRead : State,
    (readResfHi hiRead = readResfHi loRead → joinResfHalves hiRead loRead = readResf loRead) ∧
      (readResfLo hiRead = readResfLo loRead → joinResfHalves hiRead loRead = readResf hiRead) ∧
      (joinResfHalves hiRead loRead).extractLsb' 32 32 = readResfHi hiRead ∧
      (joinResfHalves hiRead loRead).extractLsb' 0 32 = readResfLo loRead
end

