-- ==== Sys2Proof/Laws/State.lean ====
section
/-! SUPPORT. What each shared update of the state leaves in each field. -/

namespace Sys2Proof.Machine

/-! ### State.raise -/

@[simp] theorem State.raise_cpos (s : State) (c : Cause) : (s.raise c).cpos = s.cpos := rfl
@[simp] theorem State.raise_res (s : State) (c : Cause) : (s.raise c).res = s.res := rfl
@[simp] theorem State.raise_resf (s : State) (c : Cause) : (s.raise c).resf = s.resf := rfl
@[simp] theorem State.raise_mt (s : State) (c : Cause) : (s.raise c).mt = s.mt := rfl
@[simp] theorem State.raise_cc (s : State) (c : Cause) : (s.raise c).cc = s.cc := rfl
@[simp] theorem State.raise_pool (s : State) (c : Cause) : (s.raise c).pool = s.pool := rfl
@[simp] theorem State.raise_busy (s : State) (c : Cause) : (s.raise c).busy = false := rfl
@[simp] theorem State.raise_fault (s : State) (c : Cause) : (s.raise c).fault = some c := rfl
@[simp] theorem State.raise_acc (s : State) (c : Cause) : (s.raise c).acc = s.acc := rfl
@[simp] theorem State.raise_ndraw (s : State) (c : Cause) : (s.raise c).ndraw = s.ndraw := rfl
@[simp] theorem State.raise_stream (s : State) (c : Cause) : (s.raise c).stream = s.stream := rfl
@[simp] theorem State.raise_weakAnswers (s : State) (c : Cause) : (s.raise c).weakAnswers = s.weakAnswers := rfl
@[simp] theorem State.raise_timeAnswers (s : State) (c : Cause) : (s.raise c).timeAnswers = s.timeAnswers := rfl
@[simp] theorem State.raise_weakQueries (s : State) (c : Cause) : (s.raise c).weakQueries = s.weakQueries := rfl
@[simp] theorem State.raise_timeQueries (s : State) (c : Cause) : (s.raise c).timeQueries = s.timeQueries := rfl

/-! ### State.advance -/

@[simp] theorem State.advance_cpos (s : State) (n : Nat) : (s.advance n).cpos = s.cpos + n := rfl
@[simp] theorem State.advance_res (s : State) (n : Nat) : (s.advance n).res = s.res := rfl
@[simp] theorem State.advance_resf (s : State) (n : Nat) : (s.advance n).resf = s.resf := rfl
@[simp] theorem State.advance_mt (s : State) (n : Nat) : (s.advance n).mt = s.mt := rfl
@[simp] theorem State.advance_cc (s : State) (n : Nat) : (s.advance n).cc = s.cc := rfl
@[simp] theorem State.advance_pool (s : State) (n : Nat) : (s.advance n).pool = s.pool := rfl
@[simp] theorem State.advance_busy (s : State) (n : Nat) : (s.advance n).busy = s.busy := rfl
@[simp] theorem State.advance_fault (s : State) (n : Nat) : (s.advance n).fault = s.fault := rfl
@[simp] theorem State.advance_acc (s : State) (n : Nat) : (s.advance n).acc = s.acc := rfl
@[simp] theorem State.advance_ndraw (s : State) (n : Nat) : (s.advance n).ndraw = s.ndraw := rfl
@[simp] theorem State.advance_stream (s : State) (n : Nat) : (s.advance n).stream = s.stream := rfl
@[simp] theorem State.advance_weakAnswers (s : State) (n : Nat) : (s.advance n).weakAnswers = s.weakAnswers := rfl
@[simp] theorem State.advance_timeAnswers (s : State) (n : Nat) : (s.advance n).timeAnswers = s.timeAnswers := rfl
@[simp] theorem State.advance_weakQueries (s : State) (n : Nat) : (s.advance n).weakQueries = s.weakQueries := rfl
@[simp] theorem State.advance_timeQueries (s : State) (n : Nat) : (s.advance n).timeQueries = s.timeQueries := rfl

/-! ### State.writeRes0 -/

@[simp] theorem State.writeRes0_cpos (s : State) (v : Word) : (s.writeRes0 v).cpos = s.cpos := rfl
@[simp] theorem State.writeRes0_res (s : State) (v : Word) : (s.writeRes0 v).res = s.res.set 0 v := rfl
@[simp] theorem State.writeRes0_resf (s : State) (v : Word) : (s.writeRes0 v).resf = s.resf := rfl
@[simp] theorem State.writeRes0_mt (s : State) (v : Word) : (s.writeRes0 v).mt = s.mt := rfl
@[simp] theorem State.writeRes0_cc (s : State) (v : Word) : (s.writeRes0 v).cc = s.cc := rfl
@[simp] theorem State.writeRes0_pool (s : State) (v : Word) : (s.writeRes0 v).pool = s.pool := rfl
@[simp] theorem State.writeRes0_busy (s : State) (v : Word) : (s.writeRes0 v).busy = s.busy := rfl
@[simp] theorem State.writeRes0_fault (s : State) (v : Word) : (s.writeRes0 v).fault = s.fault := rfl
@[simp] theorem State.writeRes0_acc (s : State) (v : Word) : (s.writeRes0 v).acc = s.acc := rfl
@[simp] theorem State.writeRes0_ndraw (s : State) (v : Word) : (s.writeRes0 v).ndraw = s.ndraw := rfl
@[simp] theorem State.writeRes0_stream (s : State) (v : Word) : (s.writeRes0 v).stream = s.stream := rfl
@[simp] theorem State.writeRes0_weakAnswers (s : State) (v : Word) : (s.writeRes0 v).weakAnswers = s.weakAnswers := rfl
@[simp] theorem State.writeRes0_timeAnswers (s : State) (v : Word) : (s.writeRes0 v).timeAnswers = s.timeAnswers := rfl
@[simp] theorem State.writeRes0_weakQueries (s : State) (v : Word) : (s.writeRes0 v).weakQueries = s.weakQueries := rfl
@[simp] theorem State.writeRes0_timeQueries (s : State) (v : Word) : (s.writeRes0 v).timeQueries = s.timeQueries := rfl

/-! ### State.writeRes -/

@[simp] theorem State.writeRes_cpos (s : State) (v : Vector Word 5) : (s.writeRes v).cpos = s.cpos := rfl
@[simp] theorem State.writeRes_res (s : State) (v : Vector Word 5) : (s.writeRes v).res = v := rfl
@[simp] theorem State.writeRes_resf (s : State) (v : Vector Word 5) : (s.writeRes v).resf = s.resf := rfl
@[simp] theorem State.writeRes_mt (s : State) (v : Vector Word 5) : (s.writeRes v).mt = s.mt := rfl
@[simp] theorem State.writeRes_cc (s : State) (v : Vector Word 5) : (s.writeRes v).cc = s.cc := rfl
@[simp] theorem State.writeRes_pool (s : State) (v : Vector Word 5) : (s.writeRes v).pool = s.pool := rfl
@[simp] theorem State.writeRes_busy (s : State) (v : Vector Word 5) : (s.writeRes v).busy = s.busy := rfl
@[simp] theorem State.writeRes_fault (s : State) (v : Vector Word 5) : (s.writeRes v).fault = s.fault := rfl
@[simp] theorem State.writeRes_acc (s : State) (v : Vector Word 5) : (s.writeRes v).acc = s.acc := rfl
@[simp] theorem State.writeRes_ndraw (s : State) (v : Vector Word 5) : (s.writeRes v).ndraw = s.ndraw := rfl
@[simp] theorem State.writeRes_stream (s : State) (v : Vector Word 5) : (s.writeRes v).stream = s.stream := rfl
@[simp] theorem State.writeRes_weakAnswers (s : State) (v : Vector Word 5) : (s.writeRes v).weakAnswers = s.weakAnswers := rfl
@[simp] theorem State.writeRes_timeAnswers (s : State) (v : Vector Word 5) : (s.writeRes v).timeAnswers = s.timeAnswers := rfl
@[simp] theorem State.writeRes_weakQueries (s : State) (v : Vector Word 5) : (s.writeRes v).weakQueries = s.weakQueries := rfl
@[simp] theorem State.writeRes_timeQueries (s : State) (v : Vector Word 5) : (s.writeRes v).timeQueries = s.timeQueries := rfl

/-! ### State.writeResf -/

@[simp] theorem State.writeResf_cpos (s : State) (v : Bits64) : (s.writeResf v).cpos = s.cpos := rfl
@[simp] theorem State.writeResf_res (s : State) (v : Bits64) : (s.writeResf v).res = s.res := rfl
@[simp] theorem State.writeResf_resf (s : State) (v : Bits64) : (s.writeResf v).resf = v := rfl
@[simp] theorem State.writeResf_mt (s : State) (v : Bits64) : (s.writeResf v).mt = s.mt := rfl
@[simp] theorem State.writeResf_cc (s : State) (v : Bits64) : (s.writeResf v).cc = s.cc := rfl
@[simp] theorem State.writeResf_pool (s : State) (v : Bits64) : (s.writeResf v).pool = s.pool := rfl
@[simp] theorem State.writeResf_busy (s : State) (v : Bits64) : (s.writeResf v).busy = s.busy := rfl
@[simp] theorem State.writeResf_fault (s : State) (v : Bits64) : (s.writeResf v).fault = s.fault := rfl
@[simp] theorem State.writeResf_acc (s : State) (v : Bits64) : (s.writeResf v).acc = s.acc := rfl
@[simp] theorem State.writeResf_ndraw (s : State) (v : Bits64) : (s.writeResf v).ndraw = s.ndraw := rfl
@[simp] theorem State.writeResf_stream (s : State) (v : Bits64) : (s.writeResf v).stream = s.stream := rfl
@[simp] theorem State.writeResf_weakAnswers (s : State) (v : Bits64) : (s.writeResf v).weakAnswers = s.weakAnswers := rfl
@[simp] theorem State.writeResf_timeAnswers (s : State) (v : Bits64) : (s.writeResf v).timeAnswers = s.timeAnswers := rfl
@[simp] theorem State.writeResf_weakQueries (s : State) (v : Bits64) : (s.writeResf v).weakQueries = s.weakQueries := rfl
@[simp] theorem State.writeResf_timeQueries (s : State) (v : Bits64) : (s.writeResf v).timeQueries = s.timeQueries := rfl

/-! ### State.queriedWeak -/

@[simp] theorem State.queriedWeak_cpos (s : State) : (s.queriedWeak).cpos = s.cpos := rfl
@[simp] theorem State.queriedWeak_res (s : State) : (s.queriedWeak).res = s.res := rfl
@[simp] theorem State.queriedWeak_resf (s : State) : (s.queriedWeak).resf = s.resf := rfl
@[simp] theorem State.queriedWeak_mt (s : State) : (s.queriedWeak).mt = s.mt := rfl
@[simp] theorem State.queriedWeak_cc (s : State) : (s.queriedWeak).cc = s.cc := rfl
@[simp] theorem State.queriedWeak_pool (s : State) : (s.queriedWeak).pool = s.pool := rfl
@[simp] theorem State.queriedWeak_busy (s : State) : (s.queriedWeak).busy = s.busy := rfl
@[simp] theorem State.queriedWeak_fault (s : State) : (s.queriedWeak).fault = s.fault := rfl
@[simp] theorem State.queriedWeak_acc (s : State) : (s.queriedWeak).acc = s.acc := rfl
@[simp] theorem State.queriedWeak_ndraw (s : State) : (s.queriedWeak).ndraw = s.ndraw := rfl
@[simp] theorem State.queriedWeak_stream (s : State) : (s.queriedWeak).stream = s.stream := rfl
@[simp] theorem State.queriedWeak_weakAnswers (s : State) : (s.queriedWeak).weakAnswers = s.weakAnswers.tail := rfl
@[simp] theorem State.queriedWeak_timeAnswers (s : State) : (s.queriedWeak).timeAnswers = s.timeAnswers := rfl
@[simp] theorem State.queriedWeak_weakQueries (s : State) : (s.queriedWeak).weakQueries = s.weakQueries + 1 := rfl
@[simp] theorem State.queriedWeak_timeQueries (s : State) : (s.queriedWeak).timeQueries = s.timeQueries := rfl

/-! ### State.queriedTime -/

@[simp] theorem State.queriedTime_cpos (s : State) : (s.queriedTime).cpos = s.cpos := rfl
@[simp] theorem State.queriedTime_res (s : State) : (s.queriedTime).res = s.res := rfl
@[simp] theorem State.queriedTime_resf (s : State) : (s.queriedTime).resf = s.resf := rfl
@[simp] theorem State.queriedTime_mt (s : State) : (s.queriedTime).mt = s.mt := rfl
@[simp] theorem State.queriedTime_cc (s : State) : (s.queriedTime).cc = s.cc := rfl
@[simp] theorem State.queriedTime_pool (s : State) : (s.queriedTime).pool = s.pool := rfl
@[simp] theorem State.queriedTime_busy (s : State) : (s.queriedTime).busy = s.busy := rfl
@[simp] theorem State.queriedTime_fault (s : State) : (s.queriedTime).fault = s.fault := rfl
@[simp] theorem State.queriedTime_acc (s : State) : (s.queriedTime).acc = s.acc := rfl
@[simp] theorem State.queriedTime_ndraw (s : State) : (s.queriedTime).ndraw = s.ndraw := rfl
@[simp] theorem State.queriedTime_stream (s : State) : (s.queriedTime).stream = s.stream := rfl
@[simp] theorem State.queriedTime_weakAnswers (s : State) : (s.queriedTime).weakAnswers = s.weakAnswers := rfl
@[simp] theorem State.queriedTime_timeAnswers (s : State) : (s.queriedTime).timeAnswers = s.timeAnswers.tail := rfl
@[simp] theorem State.queriedTime_weakQueries (s : State) : (s.queriedTime).weakQueries = s.weakQueries := rfl
@[simp] theorem State.queriedTime_timeQueries (s : State) : (s.queriedTime).timeQueries = s.timeQueries + 1 := rfl

/-! ### STATUS -/

@[simp] theorem statusWord_advance (s : State) (n : Nat) : statusWord (s.advance n) = statusWord s := rfl
@[simp] theorem statusWord_writeRes0 (s : State) (v : Word) : statusWord (s.writeRes0 v) = statusWord s := rfl
@[simp] theorem statusWord_writeRes (s : State) (v : Vector Word 5) : statusWord (s.writeRes v) = statusWord s := rfl
@[simp] theorem statusWord_writeResf (s : State) (v : Bits64) : statusWord (s.writeResf v) = statusWord s := rfl
@[simp] theorem statusWord_queriedWeak (s : State) : statusWord (s.queriedWeak) = statusWord s := rfl
@[simp] theorem statusWord_queriedTime (s : State) : statusWord (s.queriedTime) = statusWord s := rfl

end Sys2Proof.Machine
end

