-- ==== Sys2Proof/Laws/Ops.lean ====
section
/-! SUPPORT. One lemma per shared operation that says all it does: the closing updates of a command, the host queries,
and the checks on a weak reading. -/

namespace Sys2Proof.Machine

/-- A command that ends by writing RESF. Stated for any value, so that no proof evaluates one. -/
theorem State.writeResf_advance (s : State) (v : Bits64) (n : Nat) :
    (s.writeResf v).advance n = { s with resf := v, cpos := s.cpos + n } := rfl

/-- A command that ends by writing RES[0]. -/
theorem State.writeRes0_advance (s : State) (v : Word) (n : Nat) :
    (s.writeRes0 v).advance n = { s with res := s.res.set 0 v, cpos := s.cpos + n } := rfl

/-- A command that ends by writing all five result registers. -/
theorem State.writeRes_advance (s : State) (v : Vector Word 5) (n : Nat) :
    (s.writeRes v).advance n = { s with res := v, cpos := s.cpos + n } := rfl

/-- The state a fault leaves (R162). -/
theorem State.raise_eq (s : State) (c : Cause) :
    s.raise c = { s with fault := some c, busy := false } := rfl

/-- A listed answer of `HostWeak()` is the one given. -/
theorem weakAnswer_cons {s : State} {a : Option Bits64} {rest : List (Option Bits64)}
    (h : s.weakAnswers = a :: rest) : weakAnswer s = a := by
  unfold weakAnswer
  rw [h]

/-- With no answer listed, `HostWeak()` answers a free value. -/
theorem weakAnswer_nil {s : State} (h : s.weakAnswers = []) :
    weakAnswer s = Config.hostWeak s.weakQueries := by
  unfold weakAnswer
  rw [h]

/-- A listed answer of `HostTimeMs()` is the one given. -/
theorem timeAnswer_cons {s : State} {t : Bits64} {rest : List Bits64}
    (h : s.timeAnswers = t :: rest) : timeAnswer s = t := by
  unfold timeAnswer
  rw [h]

/-- A weak query does not change what the time source answers. -/
@[simp] theorem timeAnswer_queriedWeak (s : State) :
    timeAnswer s.queriedWeak = timeAnswer s := rfl

/-- The checks on a weak reading: unavailable, out of range, or accepted as the datum it encodes. -/
theorem checkWeak_cases (a : Option Bits64) :
    (a = none ∧ checkWeak a = .error .entropyUnavailable) ∨
      (∃ b, a = some b ∧ (F64.ofBits b).inUnit = false ∧ checkWeak a = .error .entropyRange) ∨
      ∃ b, a = some b ∧ (F64.ofBits b).inUnit = true ∧ checkWeak a = .ok (F64.ofBits b) := by
  rcases a with _ | b
  · exact .inl ⟨rfl, rfl⟩
  · cases h : (F64.ofBits b).inUnit
    · exact .inr (.inl ⟨b, rfl, h, by simp [checkWeak, h]⟩)
    · exact .inr (.inr ⟨b, rfl, h, by simp [checkWeak, h]⟩)

/-- A weak reading in [0.0, 1.0) passes the checks. -/
theorem checkWeak_ok {b : Bits64} (h : (F64.ofBits b).inUnit = true) :
    checkWeak (some b) = .ok (F64.ofBits b) := by
  simp [checkWeak, h]

/-- A weak reading out of range faults. -/
theorem checkWeak_range {b : Bits64} (h : (F64.ofBits b).inUnit = false) :
    checkWeak (some b) = .error .entropyRange := by
  simp [checkWeak, h]

end Sys2Proof.Machine
end

