-- ==== Sys2Proof/Laws/Commands.lean ====
section
/-! SUPPORT. One spec lemma per command and outcome: the state it completes in, and the fault it takes. Citing these
keeps the binary64 arithmetic folded. -/

namespace Sys2Proof.Machine

/-! ### The arms of `exec` -/

theorem exec_init (s : State) : exec .init s = .next (init Config.params s) := rfl

theorem exec_mtSeed (seed : Word) (s : State) :
    exec (.mtSeed seed) s = .next (mtSeedCommand seed s) := rfl

theorem exec_mtU32 (s : State) : exec .mtU32 s = .next (mtU32 s) := rfl

theorem exec_mtF64 (s : State) : exec .mtF64 s = .next (mtF64 s) := rfl

theorem exec_ccU32 (s : State) : exec .ccU32 s = .next (ccU32 Config.params s) := rfl

theorem exec_ccF64 (s : State) : exec .ccF64 s = .next (ccF64 Config.params s) := rfl

theorem exec_hybrid (s : State) : exec .hybrid s = .next (hybrid Config.params s) := rfl

theorem exec_drawMain (s : State) : exec .drawMain s = .next (drawMainStart s) := rfl

theorem exec_drawPb (s : State) : exec .drawPb s = .next (drawPb Config.params s) := rfl

/-! ### Construction -/

theorem init_of_error {P : Params} {s : State} {c : Cause}
    (h : checkWeak (weakAnswer s) = .error c) : init P s = s.queriedWeak.raise c := by
  unfold init
  rw [h]

theorem init_of_ok {P : Params} {s : State} {r : F64} (h : checkWeak (weakAnswer s) = .ok r) :
    init P s =
      { s with
        mt := some (mtSeed (combinedSeed r (timeAnswer s)))
        cc := some (P.cc.init (deriveKey (combinedSeed r (timeAnswer s))))
        pool := []
        cpos := s.cpos + 1
        weakAnswers := s.weakAnswers.tail
        weakQueries := s.weakQueries + 1
        timeAnswers := s.timeAnswers.tail
        timeQueries := s.timeQueries + 1 } := by
  unfold init
  rw [h]
  rfl

theorem mtSeedCommand_eq (seed : Word) (s : State) :
    mtSeedCommand seed s = { s with mt := some (mtSeed seed), cpos := s.cpos + 2 } := rfl

/-! ### Extraction from one engine -/

theorem mtU32_of_none {s : State} (h : s.mt = none) : mtU32 s = s.raise .mtNotSeeded := by
  unfold mtU32
  rw [h]

theorem mtU32_of_some {s : State} {m : MtState} (h : s.mt = some m) :
    mtU32 s =
      { s with mt := some (mtNext m).2, res := s.res.set 0 (mtNext m).1, cpos := s.cpos + 1 } := by
  unfold mtU32
  rw [h]
  exact State.writeRes0_advance _ _ _

theorem mtF64_of_none {s : State} (h : s.mt = none) : mtF64 s = s.raise .mtNotSeeded := by
  unfold mtF64
  rw [h]

theorem mtF64_of_some {s : State} {m : MtState} (h : s.mt = some m) :
    mtF64 s =
      { s with
        mt := some (mtNext m).2
        resf := (u01 (mtNext m).1).bits64
        cpos := s.cpos + 1 } := by
  unfold mtF64
  rw [h]
  exact State.writeResf_advance _ _ _

theorem ccU32_of_none {P : Params} {s : State} (h : s.cc = none) :
    ccU32 P s = s.raise .ccNotKeyed := by
  unfold ccU32
  rw [h]

theorem ccU32_of_some {P : Params} {s : State} {c : CcState} (h : s.cc = some c) :
    ccU32 P s =
      { s with
        cc := some (P.cc.nextU32 c).2
        res := s.res.set 0 (P.cc.nextU32 c).1
        cpos := s.cpos + 1 } := by
  unfold ccU32
  rw [h]
  exact State.writeRes0_advance _ _ _

theorem ccF64_of_none {P : Params} {s : State} (h : s.cc = none) :
    ccF64 P s = s.raise .ccNotKeyed := by
  unfold ccF64
  rw [h]

theorem ccF64_of_some {P : Params} {s : State} {c : CcState} (h : s.cc = some c) :
    ccF64 P s =
      { s with
        cc := some (P.cc.nextF64 c).2
        resf := (P.cc.nextF64 c).1.bits
        cpos := s.cpos + 1 } := by
  unfold ccF64
  rw [h]
  exact State.writeResf_advance _ _ _

/-! ### The combiner -/

/-- R130: everything `hybrid_word()` can give, in the order of its checks. -/
theorem hybridWord_cases (P : Params) (s : State) :
    (s.mt = none ∧ hybridWord P s = .fault .mtNotSeeded s) ∨
      (∃ m, s.mt = some m ∧ s.cc = none ∧ hybridWord P s = .fault .ccNotKeyed s) ∨
      (∃ m c e, s.mt = some m ∧ s.cc = some c ∧ checkWeak (weakAnswer s) = .error e ∧
        hybridWord P s = .fault e s.queriedWeak) ∨
      ∃ m c r, s.mt = some m ∧ s.cc = some c ∧ checkWeak (weakAnswer s) = .ok r ∧
        hybridWord P s = .word (combinedWord P m c r) (combinerDraws P m c s.queriedWeak) := by
  unfold hybridWord
  rcases hm : s.mt with _ | m
  · exact .inl ⟨rfl, rfl⟩
  rcases hc : s.cc with _ | c
  · exact .inr (.inl ⟨m, rfl, rfl, rfl⟩)
  rcases hw : checkWeak (weakAnswer s) with e | r
  · exact .inr (.inr (.inl ⟨m, c, e, rfl, rfl, rfl, rfl⟩))
  · exact .inr (.inr (.inr ⟨m, c, r, rfl, rfl, rfl, rfl⟩))

/-- R130: with both engines valid and an accepted reading, the combiner gives its word. -/
theorem hybridWord_of_ok {P : Params} {s : State} {m : MtState} {c : CcState} {r : F64}
    (hm : s.mt = some m) (hc : s.cc = some c) (hw : checkWeak (weakAnswer s) = .ok r) :
    hybridWord P s = .word (combinedWord P m c r) (combinerDraws P m c s.queriedWeak) := by
  unfold hybridWord
  rw [hm, hc]
  simp only [hw]

theorem hybrid_of_fault {P : Params} {s t : State} {e : Cause} (h : hybridWord P s = .fault e t) :
    hybrid P s = t.raise e := by
  unfold hybrid
  rw [h]

theorem hybrid_of_word {P : Params} {s t : State} {w : Word} (h : hybridWord P s = .word w t) :
    hybrid P s = { t with resf := (u01 w).bits64, cpos := t.cpos + 1 } := by
  unfold hybrid
  rw [h]
  exact State.writeResf_advance _ _ _

/-! ### The sampler -/

theorem drawPb_of_fault {P : Params} {s t : State} {e : Cause} (h : hybridWord P s = .fault e t) :
    drawPb P s = t.raise e := by
  unfold drawPb
  rw [h]

theorem drawPb_of_word {P : Params} {s t : State} {w : Word} (h : hybridWord P s = .word w t) :
    drawPb P s =
      { t with res := t.res.set 0 (BitVec.ofNat 32 (pbIndex (u01 w))), cpos := t.cpos + 1 } := by
  unfold drawPb
  rw [h]
  exact State.writeRes0_advance _ _ _

theorem drawMainStart_of_none {s : State} (h : s.cc = none) :
    drawMainStart s = s.raise .ccNotKeyed := by
  unfold drawMainStart
  rw [h]

theorem drawMainStart_of_some {s : State} {c : CcState} (h : s.cc = some c) :
    drawMainStart s = { s with acc := [], ndraw := 0, busy := true } := by
  unfold drawMainStart
  rw [h]

/-- R142 to R144: everything a draw step can do. -/
theorem drawStep_cases (P : Params) (s : State) :
    (s.cc = none ∧ drawStep P s = s.raise .ccNotKeyed) ∨
      (∃ c, s.cc = some c ∧ drawLimitReached P.maxDraws s.ndraw = true ∧
        drawStep P s = s.raise .drawLimit) ∨
      (∃ c, s.cc = some c ∧ drawLimitReached P.maxDraws s.ndraw = false ∧
        (accept s.acc (candidate P c)).length = 5 ∧ drawStep P s = drawComplete (drawn P c s)) ∨
      ∃ c, s.cc = some c ∧ drawLimitReached P.maxDraws s.ndraw = false ∧
        (accept s.acc (candidate P c)).length ≠ 5 ∧ drawStep P s = drawn P c s := by
  unfold drawStep
  rcases hc : s.cc with _ | c
  · exact .inl ⟨rfl, rfl⟩
  cases hl : drawLimitReached P.maxDraws s.ndraw
  · by_cases h5 : (accept s.acc (candidate P c)).length = 5
    · exact .inr (.inr (.inl ⟨c, rfl, rfl, h5, if_pos h5⟩))
    · exact .inr (.inr (.inr ⟨c, rfl, rfl, h5, if_neg h5⟩))
  · exact .inr (.inl ⟨c, rfl, rfl, rfl⟩)

/-- R144: the limit is reached exactly when there is one and it is at most the draws made. -/
theorem drawLimitReached_eq_true {o : Option Nat} {n : Nat} :
    drawLimitReached o n = true ↔ ∃ l, o = some l ∧ l ≤ n := by
  cases o <;> simp [drawLimitReached]

/-- R143: the state a completed DRAW.MAIN leaves. -/
theorem drawComplete_eq (s : State) :
    drawComplete s =
      { s with
        acc := []
        ndraw := 0
        busy := false
        res := sortedResults s.acc
        cpos := s.cpos + 1 } := rfl

/-- R142: a candidate that is looked at is a member afterwards, and no other value is added. -/
theorem mem_accept {acc : List Nat} {k j : Nat} : j ∈ accept acc k ↔ j ∈ acc ∨ j = k := by
  unfold accept
  split
  · constructor
    · exact .inl
    · rintro (h | rfl) <;> assumption
  · simp

/-- R34: accepting keeps the values distinct. -/
theorem nodup_accept {acc : List Nat} (h : acc.Nodup) (k : Nat) : (accept acc k).Nodup := by
  unfold accept
  split
  · exact h
  · rename_i hk
    rw [List.nodup_append]
    exact ⟨h, List.nodup_singleton k, by
      rintro a ha b hb rfl
      rw [List.mem_singleton.1 hb] at ha
      exact hk ha⟩

/-- R142: one candidate adds at most one value. -/
theorem length_accept_le (acc : List Nat) (k : Nat) :
    acc.length ≤ (accept acc k).length ∧ (accept acc k).length ≤ acc.length + 1 := by
  unfold accept
  split <;> simp

end Sys2Proof.Machine
end

