-- ==== Sys2Proof/Laws/Decode.lean ====
section
/-! SUPPORT. What the decoder can answer, and that it looks no further than the command. -/

namespace Sys2Proof

/-- R64: decoding of a word with words after it. -/
theorem decode_cons (w : Word) (rest : List Word) :
    decode (w :: rest) =
      if rsvdField w ≠ 0 then .illegalCommand
      else
        match opcodeOf (opcField w) with
        | none => .illegalCommand
        | some op => op.assemble rest := rfl

/-- The command an opcode gives: MT.SEED takes the next word and needs it, every other opcode leaves
the words after it alone. -/
theorem Opcode.assemble_cases (op : Opcode) (rest : List Word) :
    (op = .mtSeed ∧ rest = [] ∧ op.assemble rest = .operandMissing) ∨
      (∃ seed r, op = .mtSeed ∧ rest = seed :: r ∧ op.assemble rest = .instr (.mtSeed seed) r) ∨
      (op ≠ .mtSeed ∧ ∃ i, i.opcode = op ∧ encode i = [op.word] ∧
        op.assemble rest = .instr i rest) := by
  cases op with
  | mtSeed =>
    cases rest with
    | nil => exact .inl ⟨rfl, rfl, rfl⟩
    | cons seed r => exact .inr (.inl ⟨seed, r, rfl, rfl, rfl⟩)
  | init => exact .inr (.inr ⟨nofun, .init, rfl, rfl, rfl⟩)
  | mtU32 => exact .inr (.inr ⟨nofun, .mtU32, rfl, rfl, rfl⟩)
  | mtF64 => exact .inr (.inr ⟨nofun, .mtF64, rfl, rfl, rfl⟩)
  | ccU32 => exact .inr (.inr ⟨nofun, .ccU32, rfl, rfl, rfl⟩)
  | ccF64 => exact .inr (.inr ⟨nofun, .ccF64, rfl, rfl, rfl⟩)
  | hybrid => exact .inr (.inr ⟨nofun, .hybrid, rfl, rfl, rfl⟩)
  | drawMain => exact .inr (.inr ⟨nofun, .drawMain, rfl, rfl, rfl⟩)
  | drawPb => exact .inr (.inr ⟨nofun, .drawPb, rfl, rfl, rfl⟩)

/-- Words after a complete command do not change what its opcode gives. -/
theorem Opcode.assemble_append {op : Opcode} {ws : List Word} {i : Instr} {rest : List Word}
    (h : op.assemble ws = .instr i rest) (more : List Word) :
    op.assemble (ws ++ more) = .instr i (rest ++ more) := by
  cases op with
  | mtSeed =>
    cases ws with
    | nil => cases h
    | cons => cases h; rfl
  | init | mtU32 | mtF64 | ccU32 | ccF64 | hybrid | drawMain | drawPb => cases h; rfl

/-- Words after a complete command do not change how it decodes. -/
theorem decode_append {ws : List Word} {i : Instr} {rest : List Word}
    (h : decode ws = .instr i rest) (more : List Word) :
    decode (ws ++ more) = .instr i (rest ++ more) := by
  cases ws with
  | nil => cases h
  | cons w ws =>
    rw [List.cons_append, decode_cons]
    rw [decode_cons] at h
    split at h
    · cases h
    · rw [if_neg ‹_›]
      cases ho : opcodeOf (opcField w) with
      | none => rw [ho] at h; cases h
      | some op => rw [ho] at h; exact Opcode.assemble_append h more

/-- A word is determined by its two fields (R61). -/
theorem word_of_fields (w : Word) : w = rsvdField w ++ opcField w := by
  unfold rsvdField opcField
  apply BitVec.eq_of_getLsbD_eq
  intro i hi
  simp only [BitVec.getLsbD_append, BitVec.getLsbD_extractLsb']
  by_cases h : i < 8
  · simp [h]
  · simp [h, show 8 + (i - 8) = i by omega, show i - 8 < 24 by omega]

/-- R63: the value of `OPC` that names an opcode is the opcode's own. -/
theorem opcodeOf_eq_some {b : BitVec 8} {op : Opcode} : opcodeOf b = some op ↔ b = op.code := by
  revert b
  cases op <;> decide

/-- R63: a legal command word is the word of its opcode. -/
theorem word_eq_of_opcode {w : Word} {op : Opcode} (hr : rsvdField w = 0)
    (ho : opcodeOf (opcField w) = some op) : w = op.word := by
  rw [word_of_fields w, hr, opcodeOf_eq_some.1 ho]
  cases op <;> rfl

end Sys2Proof
end

