-- ==== Sys2Proof/Laws/Float64.lean ====
section
/-! SUPPORT. Rounding between representable bounds, and what the conversions of the commands give over their domains. -/

namespace Sys2Proof

open Sys2Proof.Machine

/-! ### Whole-number rounding -/

/-- Rounding stays at or below a whole number that bounds the quotient from above. -/
theorem roundNearestEven_le {num den b : Nat} (hd : 0 < den) (h : num ≤ b * den) :
    roundNearestEven num den ≤ b := by
  have hm := Nat.div_add_mod num den
  have hlt := Nat.mod_lt num hd
  have hq : num / den ≤ b := Nat.div_le_of_le_mul (h.trans_eq (Nat.mul_comm _ _))
  rcases Nat.lt_or_ge (num / den) b with hlt' | hge
  · unfold roundNearestEven
    dsimp only
    split
    · omega
    · split <;> omega
  · have hb : num / den = b := le_antisymm hq hge
    have hr : num % den = 0 := by rw [hb, Nat.mul_comm] at hm; omega
    unfold roundNearestEven
    simp only [hr]
    rw [if_pos (by omega)]
    exact hq

/-- Rounding stays at or above a whole number that bounds the quotient from below. -/
theorem le_roundNearestEven {num den b : Nat} (hd : 0 < den) (h : b * den ≤ num) :
    b ≤ roundNearestEven num den := by
  have hq : b ≤ num / den := (Nat.le_div_iff_mul_le hd).2 h
  unfold roundNearestEven
  dsimp only
  split
  · exact hq
  · split <;> omega

/-- Rounding to whole numbers keeps the order. -/
theorem roundNearestEven_mono {a b den : Nat} (hd : 0 < den) (h : a ≤ b) :
    roundNearestEven a den ≤ roundNearestEven b den := by
  have hq : a / den ≤ b / den := Nat.div_le_div_right h
  have ha := Nat.div_add_mod a den
  have hb := Nat.div_add_mod b den
  have hlta := Nat.mod_lt a hd
  rcases Nat.lt_or_ge (a / den) (b / den) with hlt | hge
  · have h1 : roundNearestEven a den ≤ a / den + 1 :=
      roundNearestEven_le hd (by rw [Nat.add_mul, one_mul, Nat.mul_comm]; omega)
    have h2 : b / den ≤ roundNearestEven b den := le_roundNearestEven hd (Nat.div_mul_le_self _ _)
    omega
  · have he : a / den = b / den := le_antisymm hq hge
    have hr : a % den ≤ b % den := by rw [he] at ha; omega
    unfold roundNearestEven
    dsimp only
    rw [he]
    split <;> split <;> (try split) <;> (try split) <;> omega

/-! ### Rounding to binary64 -/

/-- A representable magnitude at or above 2^(k+52) is a multiple of 2^k. -/
theorem representable_multiple {r k : Nat} (hr : Representable r) (h : 2 ^ (k + 52) ≤ r) :
    ∃ b, r = b * 2 ^ k := by
  obtain ⟨m, e, hm, rfl⟩ := hr
  have he : k ≤ e := by
    by_contra hlt
    have h1 : m * 2 ^ e < 2 ^ 53 * 2 ^ e := Nat.mul_lt_mul_of_pos_right hm (by positivity)
    have h2 : (2 : Nat) ^ 53 * 2 ^ e ≤ 2 ^ (k + 52) := by
      rw [← pow_add]
      exact Nat.pow_le_pow_right (by decide) (by omega)
    omega
  exact ⟨m * 2 ^ (e - k), by rw [Nat.mul_assoc, ← pow_add, Nat.sub_add_cancel he]⟩

/-- The spacing's exponent is 0, or the magnitude is at least 2^52 spacings. -/
theorem spacingExp_spec (u : Nat) : spacingExp u = 0 ∨ 2 ^ (spacingExp u + 52) ≤ u := by
  unfold spacingExp
  rcases Nat.lt_or_ge u.log2 53 with h | h
  · left; omega
  · right
    rw [show u.log2 - 52 + 52 = u.log2 by omega]
    apply Nat.log2_self_le
    rintro rfl
    simp [Nat.log2_zero] at h

/-- A magnitude is below 2^53 spacings. -/
theorem lt_spacing (u : Nat) : u < 2 ^ (spacingExp u + 53) := by
  have h : u < 2 ^ (u.log2 + 1) := Nat.lt_log2_self
  refine h.trans_le (Nat.pow_le_pow_right (by decide) ?_)
  unfold spacingExp
  omega

/-- A larger magnitude has no smaller spacing. -/
theorem spacingExp_mono {u v : Nat} (h : u ≤ v) : spacingExp u ≤ spacingExp v := by
  unfold spacingExp
  refine Nat.sub_le_sub_right ?_ 52
  rcases Nat.eq_zero_or_pos u with rfl | hu
  · simp
  · have : 2 ^ u.log2 < 2 ^ (v.log2 + 1) :=
      (Nat.log2_self_le (by omega)).trans_lt (h.trans_lt Nat.lt_log2_self)
    have := (Nat.pow_lt_pow_iff_right (by decide)).1 this
    omega

/-- R11: rounding, in two steps. -/
theorem roundUnits_eq (num den : Nat) :
    roundUnits num den =
      roundNearestEven num (den * 2 ^ spacingExp (num / den)) * 2 ^ spacingExp (num / den) := by
  unfold roundUnits
  rfl

/-- R11: rounding stays at or below a representable magnitude that bounds the exact quotient. -/
theorem roundUnits_le {num den r : Nat} (hd : 0 < den) (hr : Representable r)
    (h : num ≤ r * den) : roundUnits num den ≤ r := by
  rw [roundUnits_eq]
  rcases spacingExp_spec (num / den) with h0 | hk
  · rw [h0]
    simpa using roundNearestEven_le hd h
  · generalize spacingExp (num / den) = k at hk ⊢
    have hq : num / den ≤ r := Nat.div_le_of_le_mul (h.trans_eq (Nat.mul_comm _ _))
    obtain ⟨b, rfl⟩ := representable_multiple (k := k) hr (hk.trans hq)
    refine Nat.mul_le_mul_right _ (roundNearestEven_le (by positivity) ?_)
    calc num ≤ _ := h
      _ = _ := by ring

/-- R11: rounding stays at or above a representable magnitude that bounds the exact quotient. -/
theorem le_roundUnits {num den r : Nat} (hd : 0 < den) (hr : Representable r)
    (h : r * den ≤ num) : r ≤ roundUnits num den := by
  rw [roundUnits_eq]
  rcases spacingExp_spec (num / den) with h0 | hk
  · rw [h0]
    simpa using le_roundNearestEven hd h
  · generalize spacingExp (num / den) = k at hk ⊢
    rcases Nat.lt_or_ge r (2 ^ (k + 52)) with hlt | hge
    · have h2 : 2 ^ 52 * (den * 2 ^ k) ≤ num := by
        calc 2 ^ 52 * (den * 2 ^ k) = 2 ^ (k + 52) * den := by rw [pow_add]; ring
          _ ≤ num / den * den := Nat.mul_le_mul_right _ hk
          _ ≤ num := Nat.div_mul_le_self _ _
      have h3 : 2 ^ 52 * 2 ^ k ≤ roundNearestEven num (den * 2 ^ k) * 2 ^ k :=
        Nat.mul_le_mul_right _ (le_roundNearestEven (by positivity) h2)
      rw [Nat.add_comm, pow_add] at hlt
      exact hlt.le.trans h3
    · obtain ⟨b, rfl⟩ := representable_multiple hr hge
      refine Nat.mul_le_mul_right _ (le_roundNearestEven (by positivity) ?_)
      calc b * (den * 2 ^ k) = b * 2 ^ k * den := by ring
        _ ≤ num := h

/-- R11: a representable quotient is not changed by rounding. -/
theorem roundUnits_exact {num den r : Nat} (hd : 0 < den) (hr : Representable r)
    (h : num = r * den) : roundUnits num den = r :=
  le_antisymm (roundUnits_le hd hr h.le) (le_roundUnits hd hr h.ge)

/-- R11: what rounding gives is representable. -/
theorem roundUnits_representable {num den : Nat} (hd : 0 < den) :
    Representable (roundUnits num den) := by
  rw [roundUnits_eq]
  have hlt := lt_spacing (num / den)
  generalize spacingExp (num / den) = k at hlt ⊢
  have hle : roundNearestEven num (den * 2 ^ k) ≤ 2 ^ 53 := by
    refine roundNearestEven_le (by positivity) ?_
    have h1 : num < den * (num / den + 1) := Nat.lt_mul_div_succ num hd
    calc num ≤ den * (num / den + 1) := h1.le
      _ ≤ den * 2 ^ (k + 53) := Nat.mul_le_mul_left _ hlt
      _ = 2 ^ 53 * (den * 2 ^ k) := by rw [pow_add]; ring
  rcases hle.lt_or_eq with h | h
  · exact ⟨_, k, h, rfl⟩
  · exact ⟨1, 53 + k, by norm_num, by rw [h, pow_add, one_mul]⟩

/-- R11: rounding keeps the order of quotients over one denominator. -/
theorem roundUnits_mono {a b den : Nat} (hd : 0 < den) (h : a ≤ b) :
    roundUnits a den ≤ roundUnits b den := by
  have hk := spacingExp_mono (Nat.div_le_div_right (c := den) h)
  rcases hk.lt_or_eq with hlt | heq
  · have hb : 2 ^ (spacingExp (b / den) + 52) ≤ b / den := by
      rcases spacingExp_spec (b / den) with h0 | h1
      · omega
      · exact h1
    have ha := lt_spacing (a / den)
    have hp : 2 ^ (spacingExp (a / den) + 53) ≤ 2 ^ (spacingExp (b / den) + 52) :=
      Nat.pow_le_pow_right (by decide) (by omega)
    refine (roundUnits_le hd ⟨1, spacingExp (a / den) + 53, by norm_num, (one_mul _).symm⟩ ?_).trans
      (hp.trans (le_roundUnits hd ⟨1, spacingExp (b / den) + 52, by norm_num, (one_mul _).symm⟩ ?_))
    · have h1 : a < den * (a / den + 1) := Nat.lt_mul_div_succ a hd
      rw [Nat.mul_comm]
      exact h1.le.trans (Nat.mul_le_mul_left _ ha)
    · exact (Nat.mul_le_mul_right _ hb).trans (Nat.div_mul_le_self _ _)
  · rw [roundUnits_eq, roundUnits_eq, heq]
    exact Nat.mul_le_mul_right _ (roundNearestEven_mono (by positivity) h)

/-! ### Decoding -/

/-- A magnitude that an encoding stands for is representable. -/
theorem ofBits_representable {b : Bits64} {neg : Bool} {u : Nat}
    (h : F64.ofBits b = .fin neg u) : Representable u := by
  unfold F64.ofBits at h
  dsimp only at h
  have hf : (b.extractLsb' 0 52).toNat < 2 ^ 52 := (b.extractLsb' 0 52).isLt
  split at h
  · split at h <;> cases h
  · split at h
    · cases h
      exact ⟨_, 0, hf.trans (by norm_num), by simp⟩
    · cases h
      exact ⟨_, _, by omega, rfl⟩

/-- 1.0 is a positive number of units. -/
theorem unitsOfOne_pos : 0 < unitsOfOne := by
  unfold unitsOfOne
  positivity

set_option exponentiation.threshold 3000 in
/-- 1.0 is 2^53 spacings of the binade below it. -/
theorem unitsOfOne_eq : unitsOfOne = 2 ^ (1021 + 53) := by unfold unitsOfOne; norm_num

set_option exponentiation.threshold 3000 in
/-- 1.0 lies in the finite range. -/
theorem unitsOfOne_le_unitsOfOverflow : unitsOfOne ≤ unitsOfOverflow := by
  unfold unitsOfOne unitsOfOverflow
  exact Nat.pow_le_pow_right (by decide) (by decide)

/-- What the range test says of a datum: finite, its magnitude below 1.0, and negative only as -0.0. -/
theorem inUnit_cases {r : F64} (h : r.inUnit = true) :
    ∃ neg u, r = .fin neg u ∧ u < unitsOfOne ∧ (neg = true → u = 0) := by
  have hpos := unitsOfOne_pos
  have hover := unitsOfOne_le_unitsOfOverflow
  cases r with
  | nan => simp [F64.inUnit, F64.rank] at h
  | inf neg =>
    cases neg <;>
      simp only [F64.inUnit, F64.rank, Bool.and_eq_true, decide_eq_true_eq] at h <;> omega
  | fin neg u =>
    refine ⟨neg, u, rfl, ?_⟩
    cases neg <;>
      simp only [F64.inUnit, F64.rank, Bool.and_eq_true, decide_eq_true_eq] at h
    · exact ⟨by omega, by simp⟩
    · exact ⟨by omega, fun _ => by omega⟩

/-- The largest representable magnitude below 2^(k+53) is one spacing away from it. -/
theorem le_of_representable_lt {u k : Nat} (hr : Representable u) (h : u < 2 ^ (k + 53)) :
    u ≤ 2 ^ (k + 53) - 2 ^ k := by
  have hp : 0 < 2 ^ k := Nat.pow_pos (by decide)
  have e1 : 2 ^ (k + 53) = 2 ^ 53 * 2 ^ k := by rw [Nat.add_comm, pow_add]
  have e2 : 2 ^ (k + 52) = 2 ^ 52 * 2 ^ k := by rw [Nat.add_comm, pow_add]
  rcases Nat.lt_or_ge u (2 ^ (k + 52)) with hlt | hge
  · omega
  · obtain ⟨b, rfl⟩ := representable_multiple hr hge
    have hb : b < 2 ^ 53 := Nat.lt_of_mul_lt_mul_right (a := 2 ^ k) (by omega)
    have : b * 2 ^ k ≤ (2 ^ 53 - 1) * 2 ^ k := Nat.mul_le_mul_right _ (by omega)
    rw [Nat.sub_mul, one_mul] at this
    omega

/-- 1 - 2^-53, the largest binary64 below 1.0, in units. -/
@[irreducible] def unitsBelowOne : Nat := unitsOfOne - 2 ^ 1021

/-- A representable magnitude below 1.0 is at most 1 - 2^-53. -/
theorem le_belowOne {u : Nat} (hr : Representable u) (h : u < unitsOfOne) :
    u ≤ unitsBelowOne := by
  unfold unitsBelowOne
  rw [unitsOfOne_eq] at *
  exact le_of_representable_lt hr h

/-! ### Products and quotients of the commands' conversions -/

/-- A magnitude bounded by a finite one is finite. -/
theorem ofRounded_of_le {u v : Nat} (h : u ≤ v) (hv : v < unitsOfOverflow) (neg : Bool) :
    F64.ofRounded neg u = .fin neg u := if_pos (h.trans_lt hv)

/-- A whole number below 2^53 is representable (R11: `f64(n)` is exact). -/
theorem ofNat_representable {n : Nat} (h : n < 2 ^ 53) : Representable (n * unitsOfOne) :=
  ⟨n, 1021 + 53, h, by rw [unitsOfOne_eq]⟩

set_option exponentiation.threshold 3000 in
/-- A whole number below 2^53 is in the finite range. -/
theorem ofNat_lt_overflow {n : Nat} (h : n < 2 ^ 53) : n * unitsOfOne < unitsOfOverflow := by
  have e : unitsOfOverflow = 2 ^ (971 + 53) * unitsOfOne := by
    unfold unitsOfOverflow unitsOfOne
    rw [← pow_add]
  rw [e]
  refine Nat.mul_lt_mul_of_pos_right (h.trans_le ?_) unitsOfOne_pos
  exact Nat.pow_le_pow_right (by decide) (Nat.le_add_left _ _)

/-- R80, R140: the product of a reading in [0.0, 1.0) and a whole number: finite, at most that number,
and non-negative but for -0.0. -/
theorem fmul_unit {b : Bits64} (hb : (F64.ofBits b).inUnit = true) {k : Nat} (hk : k < 2 ^ 53) :
    ∃ neg u, F64.ofBits b = .fin neg u ∧ (neg = true → u = 0) ∧ u ≤ unitsBelowOne ∧
      roundUnits (u * (k * unitsOfOne)) unitsOfOne ≤ k * unitsOfOne ∧
      fmul (F64.ofBits b) (F64.ofNat k) =
        .fin neg (roundUnits (u * (k * unitsOfOne)) unitsOfOne) := by
  obtain ⟨neg, u, h, hlt, hneg⟩ := inUnit_cases hb
  have hle : roundUnits (u * (k * unitsOfOne)) unitsOfOne ≤ k * unitsOfOne := by
    refine roundUnits_le unitsOfOne_pos (ofNat_representable hk) ?_
    rw [Nat.mul_comm]
    exact Nat.mul_le_mul_left _ hlt.le
  refine ⟨neg, u, h, hneg, le_belowOne (ofBits_representable h) hlt, hle, ?_⟩
  rw [h]
  unfold fmul F64.ofNat
  dsimp only
  rw [Bool.xor_false, ofRounded_of_le hle (ofNat_lt_overflow hk)]

/-- The divisor of R101 is not zero. -/
theorem u32Max_units_pos : 0 < u32Max * unitsOfOne :=
  Nat.mul_pos (by decide) unitsOfOne_pos

/-- R101: the normalized word: finite, positive in sign, at most 1.0. -/
theorem u01_spec (n : Word) :
    roundUnits (n.toNat * unitsOfOne * unitsOfOne) (u32Max * unitsOfOne) ≤ unitsOfOne ∧
      u01 n =
        .fin false (roundUnits (n.toNat * unitsOfOne * unitsOfOne) (u32Max * unitsOfOne)) := by
  have hn : n.toNat ≤ u32Max := by
    have := n.isLt
    unfold u32Max
    omega
  have hle : roundUnits (n.toNat * unitsOfOne * unitsOfOne) (u32Max * unitsOfOne) ≤ unitsOfOne := by
    refine roundUnits_le u32Max_units_pos ?_ ?_
    · simpa using ofNat_representable (n := 1) (by norm_num)
    · rw [Nat.mul_comm unitsOfOne]
      exact Nat.mul_le_mul_right _ (Nat.mul_le_mul_right _ hn)
  refine ⟨hle, ?_⟩
  have hover : unitsOfOne < unitsOfOverflow := by
    simpa using ofNat_lt_overflow (n := 1) (by norm_num)
  unfold u01 fdiv F64.ofNat
  dsimp only
  rw [if_neg u32Max_units_pos.ne', Bool.xor_false, ofRounded_of_le hle hover]

/-- A larger word gives no smaller normalized value. -/
theorem u01_mono {a b : Nat} (h : a ≤ b) :
    roundUnits (a * unitsOfOne * unitsOfOne) (u32Max * unitsOfOne) ≤
      roundUnits (b * unitsOfOne * unitsOfOne) (u32Max * unitsOfOne) :=
  roundUnits_mono u32Max_units_pos (Nat.mul_le_mul_right _ (Nat.mul_le_mul_right _ h))

/-- `floor` of a non-negative finite datum. -/
theorem floor_fin_false (u : Nat) : (F64.fin false u).floor = ((u / unitsOfOne : Nat) : Int) := rfl

/-- `trunc` of a non-negative finite datum. -/
theorem trunc_fin_false (u : Nat) : (F64.fin false u).trunc = ((u / unitsOfOne : Nat) : Int) := rfl

/-- `floor` of -0.0. -/
theorem floor_neg_zero : (F64.fin true 0).floor = 0 := by
  have h : (0 + (unitsOfOne - 1)) / unitsOfOne = 0 :=
    Nat.div_eq_of_lt (by have := unitsOfOne_pos; omega)
  unfold F64.floor
  dsimp only
  rw [h]
  rfl

/-- `trunc` of -0.0. -/
theorem trunc_neg_zero : (F64.fin true 0).trunc = 0 := by
  unfold F64.trunc
  dsimp only
  rw [Nat.zero_div]
  rfl

/-- Rounding keeps 0. -/
theorem roundUnits_zero {den : Nat} (hd : 0 < den) : roundUnits 0 den = 0 :=
  roundUnits_exact hd ⟨0, 0, by norm_num, rfl⟩ (Nat.zero_mul _).symm

end Sys2Proof
end

