-- ==== Sys2Proof/Laws/Mt.lean ====
section
/-! SUPPORT. The MT engine's state after seeding, the twist and an extraction. -/

namespace Sys2Proof.Machine

/-- R96: the cursor after seeding. -/
@[simp] theorem mtSeed_mti (seed : Word) : (mtSeed seed).mti = 624 := rfl

/-- R95: word i after seeding. -/
theorem mtSeed_words (seed : Word) (i : Nat) (h : i < 624) :
    (mtSeed seed).words[i] = seedWord seed i := by
  unfold mtSeed
  exact Vector.getElem_ofFn h

/-- R97: the cursor after a twist. -/
@[simp] theorem twist_mti (m : MtState) : (twist m).mti = 0 := rfl

/-- R99: no twist while the cursor is below 624. -/
theorem refill_of_lt {m : MtState} (h : m.mti < 624) : refill m = m := if_neg (Nat.not_le.2 h)

/-- R99: a twist once the cursor has reached 624. -/
theorem refill_of_ge {m : MtState} (h : 624 ≤ m.mti) : refill m = twist m := if_pos h

/-- R99: an extraction moves the cursor one past the word it read. -/
theorem mtNext_mti (m : MtState) : (mtNext m).2.mti = (refill m).mti + 1 := rfl

/-- R99: an extraction writes the array only through the twist. -/
theorem mtNext_words (m : MtState) : (mtNext m).2.words = (refill m).words := rfl

/-- R31: an extraction leaves the cursor in [0, 624]. -/
theorem mtNext_mti_le (m : MtState) : (mtNext m).2.mti ≤ 624 := by
  rw [mtNext_mti]
  exact refill_mti_lt m

/-- The words of the twist so far: iteration i of `twistAt` sets word i and no other. -/
theorem twistAt_getElem (mt : Vector Word 624) (i j : Nat) (hi : i < 624) (hj : j < 624) :
    (twistAt i hi mt)[j] =
      if i = j then twistWord mt[i] (wordAt mt (i + 1)) (wordAt mt (i + 397)) else mt[j] := by
  unfold twistAt
  exact Vector.getElem_set ..

/-- A word at an index below 624. -/
theorem wordAt_of_lt (mt : Vector Word 624) (k : Nat) (h : k < 624) : wordAt mt k = mt[k] := by
  unfold wordAt
  congr 1
  exact Nat.mod_eq_of_lt h

end Sys2Proof.Machine
end

