-- ==== Sys2Proof/Laws/PerInstr.lean ====
section
/-! SUPPORT. The family of facts about every command as syntax: its words. -/

/-- A command is well formed, its first word is `zext_32(OPC)` of its opcode (R63), and it has as many
words as the opcode says (R66). -/
def Sys2Proof.Laws.Words.Statement (i : Sys2Proof.Instr) : Prop :=
  i.wf = true ∧ (Sys2Proof.encode i).head? = some i.opcode.word ∧
    (Sys2Proof.encode i).length = i.opcode.length

theorem Sys2Proof.Laws.Words.init : Statement .init := by simp only [Statement]; decide

theorem Sys2Proof.Laws.Words.mtSeed (seed : Sys2Proof.Word) : Statement (.mtSeed seed) :=
  ⟨rfl, rfl, rfl⟩

theorem Sys2Proof.Laws.Words.mtU32 : Statement .mtU32 := by simp only [Statement]; decide

theorem Sys2Proof.Laws.Words.mtF64 : Statement .mtF64 := by simp only [Statement]; decide

theorem Sys2Proof.Laws.Words.ccU32 : Statement .ccU32 := by simp only [Statement]; decide

theorem Sys2Proof.Laws.Words.ccF64 : Statement .ccF64 := by simp only [Statement]; decide

theorem Sys2Proof.Laws.Words.hybrid : Statement .hybrid := by simp only [Statement]; decide

theorem Sys2Proof.Laws.Words.drawMain : Statement .drawMain := by simp only [Statement]; decide

theorem Sys2Proof.Laws.Words.drawPb : Statement .drawPb := by simp only [Statement]; decide
end

