-- ==== Sys2Proof/Laws/Step.lean ====
section
/-! SUPPORT. What one step can do, and that a placed instruction is the one a step fetches. -/

namespace Sys2Proof.Machine

/-- R64, R142, R164: everything a step can do. -/
theorem step_cases (s : State) :
    (s.fault ≠ none ∧ step s = .fault .halted) ∨
      (s.fault = none ∧ s.busy = true ∧ step s = .next (drawStep Config.params s)) ∨
      (s.fault = none ∧ s.busy = false ∧
        ((∃ i rest, fetch s = .instr i rest ∧ step s = exec i s) ∨
          (fetch s = .illegalCommand ∧ step s = .next (s.raise .illegalCommand)) ∨
          (fetch s = .noWord ∧ step s = .fault .noCommandWord) ∨
          (fetch s = .operandMissing ∧ step s = .fault .operandMissing))) := by
  unfold step faultBit
  rcases hf : s.fault with _ | c
  · cases hb : s.busy
    · refine .inr (.inr ⟨rfl, rfl, ?_⟩)
      rcases fetch s with ⟨i, rest⟩ | _ | _ | _
      · exact .inl ⟨i, rest, rfl, rfl⟩
      · exact .inr (.inl ⟨rfl, rfl⟩)
      · exact .inr (.inr (.inl ⟨rfl, rfl⟩))
      · exact .inr (.inr (.inr ⟨rfl, rfl⟩))
    · exact .inr (.inl ⟨rfl, rfl, rfl⟩)
  · exact .inl ⟨by simp, rfl⟩

/-- The words placed at cpos are the ones there, whatever the stream held. -/
theorem drop_withFetchWord (s : State) (nbits w : Nat) :
    (s.withFetchWord nbits w).stream.drop (s.withFetchWord nbits w).cpos =
      tableWords nbits w ++ s.stream.drop (s.cpos + 2) := by
  have h : (s.stream.take s.cpos ++ List.replicate (s.cpos - s.stream.length) (0 : Word)).length
      = s.cpos := by simp; omega
  simp only [State.withFetchWord, List.append_assoc]
  rw [← List.append_assoc, List.drop_left' h]

/-- A table row's word placed where the step fetches is the command that the step runs. -/
theorem step_withFetchWord {s : State} {nbits w : Nat} {i : Instr} (hf : s.fault = none)
    (hb : s.busy = false) (h : decodeTableWord nbits w = some i) :
    step (s.withFetchWord nbits w) = exec i (s.withFetchWord nbits w) := by
  have hd : ∃ rest, decode (tableWords nbits w) = .instr i rest := by
    unfold decodeTableWord at h
    split at h
    · cases h
      exact ⟨_, ‹_›⟩
    all_goals cases h
  obtain ⟨rest, hd⟩ := hd
  have hfetch : fetch (s.withFetchWord nbits w) = .instr i (rest ++ s.stream.drop (s.cpos + 2)) := by
    unfold fetch
    rw [drop_withFetchWord]
    exact decode_append hd _
  have h1 : (s.withFetchWord nbits w).fault = none := hf
  have h2 : (s.withFetchWord nbits w).busy = false := hb
  simp only [step, faultBit, h1, h2, hfetch]
  rfl

end Sys2Proof.Machine
end

