-- ==== Sys2Proof/Tests/Slice0.lean ====
section
/-! SUPPORT. Tests against the spec's own words and vectors (30_encoding.md, 95_test_vectors.md), the ill-formed terms that
WellFormed refuses, and a witness for each statement that has hypotheses. -/

namespace Sys2Proof.Tests

open Sys2Proof Sys2Proof.Machine

/-! ### Small states and the stubs for CC (95_test_vectors.md) -/

/-- CC-STUB-A's calls used here: the first nextU32 is 0x12345678, the first nextF64 is 0.5. Its state
after INIT is byte 0 of the key, so that a test can see the key. -/
def stubA : CC :=
  { init := fun key => key[0].toNat
    nextU32 := fun k => (0x12345678#32 + BitVec.ofNat 32 k * 0x9E3779B9#32, k + 1)
    nextF64 := fun k => (⟨0x3FE0000000000000⟩, k + 1) }

/-- CC-STUB-B: nextF64 gives 0.0, 0.0, 0.5, 1 - 2^-53, 0.5, 0.1, 0.2. -/
def stubB : CC :=
  { init := fun _ => 0
    nextU32 := fun k => (0, k + 1)
    nextF64 := fun k =>
      (match k with
        | 0 => ⟨0⟩
        | 1 => ⟨0⟩
        | 2 => ⟨0x3FE0000000000000⟩
        | 3 => ⟨0x3FEFFFFFFFFFFFFF⟩
        | 4 => ⟨0x3FE0000000000000⟩
        | 5 => ⟨0x3FB999999999999A⟩
        | 6 => ⟨0x3FC999999999999A⟩
        | _ => ⟨0x3FD3333333333333⟩, k + 1) }

def paramsA : Params := { cc := stubA, maxDraws := none }

def paramsB (limit : Option Nat) : Params := { cc := stubB, maxDraws := limit }

/-- The encoding of 0.5. -/
def half : Bits64 := 0x3FE0000000000000

/-- An MT state whose every word tempers to 0xD091BB5C, the first output for seed 5489 (V-MT-03,
V-MT-01). -/
def mtState : MtState := { words := Vector.replicate 624 0x9B0AFA27, mti := 5 }

/-- A constructed engine with the host answers of V-SD-03 and a stream of the given words. -/
def engine (words : List Word) : State :=
  { State.reset with
    mt := some mtState
    cc := some 0
    stream := words
    weakAnswers := [some half]
    timeAnswers := [1700000000000] }

/-- A DRAW.MAIN under way that has accepted 1, 35, 69 and 7 in six draws (V-DM-02). -/
def drawing : State :=
  { engine [0x00000008] with busy := true, acc := [1, 35, 69, 7], ndraw := 6, cc := some 6 }

/-- A faulted block. -/
def faulted : State := { State.reset with fault := some .mtNotSeeded }

/-- STATUS after an outcome; none where there is no next state. -/
def statusAfter (o : Host.Outcome State Fault Refusal) : Option Word := (nextState o).map statusWord

/-! ### Decoding: the words of 30_encoding.md R61 and R63, written out bit by bit -/

theorem test_decode_init :
    decode [0b00000000000000000000000000000001#32] = .instr .init [] := by decide

theorem test_decode_mtSeed :
    decode [0b00000000000000000000000000000010#32, 0b00000000000000000001010101110001#32] =
      .instr (.mtSeed 5489) [] := by decide

theorem test_decode_mtU32 :
    decode [0b00000000000000000000000000000011#32] = .instr .mtU32 [] := by decide

theorem test_decode_mtF64 :
    decode [0b00000000000000000000000000000100#32] = .instr .mtF64 [] := by decide

theorem test_decode_ccU32 :
    decode [0b00000000000000000000000000000101#32] = .instr .ccU32 [] := by decide

theorem test_decode_ccF64 :
    decode [0b00000000000000000000000000000110#32] = .instr .ccF64 [] := by decide

theorem test_decode_hybrid :
    decode [0b00000000000000000000000000000111#32] = .instr .hybrid [] := by decide

theorem test_decode_drawMain :
    decode [0b00000000000000000000000000001000#32] = .instr .drawMain [] := by decide

theorem test_decode_drawPb :
    decode [0b00000000000000000000000000001001#32] = .instr .drawPb [] := by decide

/-- V-EN-07: the operand word is data. -/
theorem test_decode_operand_is_data :
    decode [0x00000002, 0x00000103] = .instr (.mtSeed 259) [] := by decide

/-- V-EN-03 to V-EN-05. -/
theorem test_decode_reserved_words :
    decode [0x00000000] = .illegalCommand ∧ decode [0x0000000A] = .illegalCommand ∧
      decode [0x000000FF] = .illegalCommand ∧ decode [0x00000103] = .illegalCommand ∧
      decode [0x80000003] = .illegalCommand := by decide

/-- V-EN-06. -/
theorem test_decode_missing_operand : decode [0x00000002] = .operandMissing := by decide

theorem test_tableWord_operand :
    decodeTableWord 32 2 = some (.mtSeed 0) ∧
      decodeTableWord 64 0x0000157100000002 = some (.mtSeed 5489) ∧
      decodeTableWord 32 0 = none := by decide

/-! ### WellFormed refuses each ill-formed term (R68) -/

theorem test_wf_operand_out_of_range : (AsmLine.command .mtSeed (some 4294967296)).wf = false := by
  decide

theorem test_wf_operand_missing : (AsmLine.command .mtSeed none).wf = false := by decide

theorem test_wf_operand_not_taken : (AsmLine.command .mtU32 (some 0)).wf = false := by decide

theorem test_wf_word_out_of_range : (AsmLine.word 4294967296).wf = false := by decide

theorem test_wf_count_out_of_range : (AsmLine.pseudo .benchMt 4294967296).wf = false := by decide

theorem test_wf_largest_operand : (AsmLine.command .mtSeed (some 4294967295)).wf = true := by decide

/-! ### The assembler (R68, R69, V-BN-01) -/

theorem test_assemble_case_and_comment :
    assembleLine "  mt.seed 0x1571 ; reseed".toList = some [0x00000002, 0x00001571] := by decide

theorem test_assemble_rejects_negative : assembleLine "MT.SEED -1".toList = none := by decide

theorem test_assemble_empty_expansion : assembleLine "BENCH.LOTTERY 0".toList = some [] := by decide

theorem test_disassemble_raw_word :
    disassemble [0x00000103, 0x00000002, 0x00001571] =
      [".word 0x00000103".toList, "MT.SEED 0x00001571".toList] := by decide

/-! ### Seed derivation and INIT -/

/-- V-SD-01. -/
theorem test_scale32_vectors :
    scale32 (F64.ofBits 0x3DF0000000000000) = 0 ∧ scale32 (F64.ofBits 0x3E00000000000000) = 1 ∧
      scale32 (F64.ofBits 0x3FBF9ADD3739635F) = 0x1F9ADD37 ∧
      scale32 (F64.ofBits 0x3FEFFFFFFFFFFFFF) = 0xFFFFFFFE := by decide +kernel

/-- V-SD-02, second row: the key's first two groups and its last. -/
theorem test_deriveKey_vector :
    (deriveKey 0xB01A97FF).toList.take 8 = [0xff, 0x97, 0x1a, 0xb0, 0xfe, 0x2f, 0x35, 0x60] ∧
      (deriveKey 0xB01A97FF).toList.drop 28 = [0xf8, 0xbf, 0xd4, 0x80] := by decide

/-- V-SD-03 and V-SD-02: the seed, the key's byte 0 through the stub, STATUS and cpos. -/
theorem test_init_constructs :
    let t := init paramsA { State.reset with weakAnswers := [some half], timeAnswers := [1700000000000] }
    (t.mt.map fun m => m.words[0]) = some 0xB01A97FF ∧ t.cc = some 0xff ∧ statusWord t = 0x3 ∧
      t.cpos = 1 := by decide +kernel

/-- V-SD-04: the reading 1.0 faults, and the time is not queried. -/
theorem test_init_entropy_range :
    let t := init paramsA { State.reset with weakAnswers := [some 0x3FF0000000000000] }
    statusWord t = 0x508 ∧ t.cpos = 0 ∧ t.timeQueries = 0 := by decide +kernel

/-! ### MT19937 -/

/-- V-MT-01, R102. -/
theorem test_seedWord_vectors :
    seedWord 5489 1 = 0x4D98EE96 ∧ seedWord 5489 2 = 0xAF25F095 ∧ seedWord 0 2 = 0x6C078967 := by
  decide

/-- V-MT-03, V-MT-01: word 0 of the first twist, and the first output. -/
theorem test_first_output_of_5489 :
    let w := twistWord (seedWord 5489 0) (seedWord 5489 1) (seedWord 5489 397)
    w = 0x9B0AFA27 ∧ temper w = 3499211612 := by decide +kernel

/-- V-MT-06. -/
theorem test_temper_vectors :
    temper 0x00000001 = 0x00400091 ∧ temper 0x80000000 = 0x88102204 ∧
      temper 0xFFFFFFFF = 0x6FE01BF8 ∧ temper 0x12345678 = 0x2B7E4A2D := by decide

/-- V-F64-02, V-F64-05, V-F64-06, V-F64-07. -/
theorem test_u01_vectors :
    (u01 0x00000001).bits64 = 0x3DF0000000100000 ∧ (u01 0x80000000).bits64 = 0x3FE0000000100000 ∧
      (u01 0xFFFFFFFE).bits64 = 0x3FEFFFFFFFE00000 ∧
      (u01 0xFFFFFFFF).bits64 = 0x3FF0000000000000 := by decide +kernel

/-- R102: MT.SEED before INIT; STATUS and cpos. -/
theorem test_mtSeed_step :
    let t := mtSeedCommand 5489 State.reset
    statusWord t = 0x1 ∧ t.cpos = 2 ∧ (t.mt.map MtState.mti) = some 624 := by decide

/-- R103: RES[0] and the cursor. -/
theorem test_mtU32_result :
    (mtU32 (engine [])).res[0] = 0xD091BB5C ∧
      ((mtU32 (engine [])).mt.map MtState.mti) = some 6 := by decide

/-- R103, V-EN: MT.U32 from reset takes MT_NOT_SEEDED, as the first instruction after reset. -/
theorem test_mtU32_unseeded : statusAfter (step (State.reset.withFetchWord 32 3)) = some 0x208 := by
  decide

/-- V-F64-08. -/
theorem test_mtF64_result : (mtF64 (engine [])).resf = 0x3FEA12376B9A1237 := by decide +kernel

/-! ### The stream cipher and the combiner -/

/-- V-CC-01. -/
theorem test_ccU32_result :
    (ccU32 paramsA (engine [])).res[0] = 0x12345678 ∧ (ccU32 paramsA (engine [])).cc = some 1 := by
  decide

/-- V-CC-04. -/
theorem test_ccU32_unkeyed : statusAfter (step (State.reset.withFetchWord 32 5)) = some 0x308 := by
  decide

/-- V-CC-02. -/
theorem test_ccF64_result : (ccF64 paramsA (engine [])).resf = 0x3FE0000000000000 := by decide

/-- V-CC-05: MT.SEED does not key the stream cipher. -/
theorem test_ccF64_after_mtSeed :
    statusAfter (exec .ccF64 (mtSeedCommand 1 State.reset)) = some 0x309 := by decide

/-- V-HY-01, first row. -/
theorem test_hybrid_result : (hybrid paramsA (engine [])).resf = 0x3FE7AB425B77AB42 := by
  decide +kernel

/-- V-HY-02: MT_NOT_SEEDED comes first, and the host is not queried; with both engines valid the
unavailable source and the NaN reading have codes 0x04 and 0x05. -/
theorem test_hybrid_priority :
    statusWord (hybrid paramsA { State.reset with weakAnswers := [none] }) = 0x208 ∧
      (hybrid paramsA { State.reset with weakAnswers := [none] }).weakQueries = 0 ∧
      statusWord (hybrid paramsA { engine [] with weakAnswers := [none] }) = 0x40B ∧
      statusWord (hybrid paramsA { engine [] with weakAnswers := [some 0x7FF8000000000000] }) =
        0x50B := by decide +kernel

/-! ### The sampler -/

/-- V-DM-01 and V-DM-05. -/
theorem test_mainIndex_vectors :
    mainIndex (F64.ofBits 0x3FB999999999999A) = 7 ∧ mainIndex (F64.ofBits 0x3FEFFFFFFFFFFFFF) = 69 ∧
      mainIndex (F64.ofBits 0x3FC467E2519F8946) = 11 ∧
      mainIndex (F64.ofBits 0x3FDE9BD37A6F4DEA) = 34 := by decide +kernel

/-- V-PB-02, V-PB-03, V-PB-04. -/
theorem test_pbIndex_vectors :
    pbIndex (u01 0x09D89D89) = 1 ∧ pbIndex (u01 0x09D89D8A) = 2 ∧ pbIndex (u01 0x80000000) = 14 ∧
      pbIndex (u01 0xFFFFFFFF) = 27 := by decide +kernel

/-- V-DM-04: DRAW.MAIN from reset faults and BUSY is never set. -/
theorem test_drawMain_unkeyed : statusAfter (step (State.reset.withFetchWord 32 8)) = some 0x308 := by
  decide

/-- P4: the start step. -/
theorem test_drawMain_start :
    statusWord (drawMainStart (engine [8])) = 0x7 ∧ (drawMainStart (engine [8])).cpos = 0 := by decide

/-- V-DM-02: the seventh draw completes; the results are sorted. -/
theorem test_drawStep_completes :
    (drawStep (paramsB none) drawing).res = #v[1, 7, 14, 35, 69] ∧
      statusWord (drawStep (paramsB none) drawing) = 0x3 ∧
      (drawStep (paramsB none) drawing).cpos = 1 := by decide +kernel

/-- V-DM-03: the draw limit. -/
theorem test_drawStep_limit :
    statusWord (drawStep (paramsB (some 6)) drawing) = 0x60B ∧
      (drawStep (paramsB (some 6)) drawing).acc = [1, 35, 69, 7] := by decide

/-- V-PB: with (0x12345678, 0xD091BB5C, 0.5), DRAW.PB gives 20. -/
theorem test_drawPb_result : (drawPb paramsA (engine [])).res[0] = 20 := by decide +kernel

/-- V-PB: after MT.SEED alone DRAW.PB takes CC_NOT_KEYED. -/
theorem test_drawPb_unkeyed :
    statusAfter (exec .drawPb (mtSeedCommand 3 State.reset)) = some 0x309 := by decide

/-! ### Steps at the edges, and the host port -/

/-- V-EN-03: a cleared word faults. -/
theorem test_step_zero_word : statusAfter (step (State.reset.withFetchWord 32 0)) = some 0x108 := by
  decide

/-- R186: an empty stream, an MT.SEED without its operand, and a fault have no step. -/
theorem test_step_stops :
    step State.reset = .fault .noCommandWord ∧
      step { State.reset with stream := [2] } = .fault .operandMissing ∧
      step faulted = .fault .halted := ⟨rfl, rfl, rfl⟩

/-- R180: reset in the middle of a DRAW.MAIN. -/
theorem test_reset_aborts_draw : readStatus (hostAct .reset drawing) = 0 := by decide

/-- R22: the halves of RESF. -/
theorem test_resf_halves :
    readResfHi { State.reset with resf := 0x3FEA12376B9A1237 } = 0x3FEA1237 ∧
      readResfLo { State.reset with resf := 0x3FEA12376B9A1237 } = 0x6B9A1237 := by decide

/-! ### Witnesses: states and operands that meet each statement's hypotheses -/

theorem half_inUnit : (F64.ofBits half).inUnit = true := by decide +kernel

theorem witness_DecodeAndEncodeAgree :
    decode [0x00000009] = .instr .drawPb [] ∧ (encode .init).head? = (encode .init).head? ∧
      encodeAll [.init, .mtSeed 1] = encodeAll [.init, .mtSeed 1] := by decide

theorem witness_LengthFollowsFromOpcode :
    decode [0x00000002, 0x00000007] = .instr (.mtSeed 7) [] ∧
      decode [0x00000001, 0x00000007] = .instr .init [0x00000007] ∧
      decode [0x0000000A] = .illegalCommand := by decide

/-- One word for each clause of R65, at its boundary. -/
theorem witness_ReservedWordsFault :
    (∀ w : Word, (engine [w]).fault = none ∧ (engine [w]).busy = false ∧
        (engine [w]).stream.drop (engine [w]).cpos = [w]) ∧
      rsvdField 0x00000101 ≠ 0 ∧ opcField 0x00000000 = 0x00 ∧
      0x0A ≤ (opcField 0x0000000A).toNat := by
  refine ⟨fun w => ⟨rfl, rfl, rfl⟩, by decide, by decide, by decide⟩

theorem witness_DecodeAtCommandBoundary :
    (engine [0x00000002, 0x00000007]).fault = none ∧ (engine [0x00000002]).busy = false := by decide

theorem witness_AssemblerChecksOperands :
    readLine "MT.SEED 4294967296".toList = some (.command .mtSeed (some 4294967296)) ∧
      (AsmLine.command .mtSeed (some 4294967296)).wf = false ∧ (4294967295 : Nat) ≤ 4294967295 := by
  decide

/-- The lines of the reading clauses: accepted at the bound, unreadable, and negative. -/
theorem witness_AssemblerChecksOperands_lines :
    readLine "MT.SEED 4294967295".toList = some (.command .mtSeed (some 4294967295)) ∧
      (AsmLine.command .mtSeed (some 4294967295)).wf = true ∧
      readLine "MT.SEED 1 2".toList = none ∧
      tokens "MT.SEED -1".toList = ["MT.SEED".toList, ['-', '1']] ∧
      tokens "mt.seed 0xFFFFFFFF".toList = ["mt.seed".toList, "0xFFFFFFFF".toList] ∧
      opcodeNamed "mt.seed".toList = some .mtSeed ∧
      readNumber "0xFFFFFFFF".toList = some 4294967295 := by
  decide

theorem witness_StepRunsDecodedCommand :
    (engine [0x00000003]).fault = none ∧ (engine [0x00000003]).busy = false ∧
      decode ((engine [0x00000003]).stream.drop (engine [0x00000003]).cpos) = .instr .mtU32 [] := by
  decide

theorem witness_HaltedBlockHasNoStep :
    faulted.fault ≠ none ∧ HostAction.present 3 ≠ .reset := by decide

/-- A completing command, a faulting one, DRAW.MAIN's start, and the two kinds of draw step. -/
theorem witness_CommandPositionMoves :
    (engine []).fault = none ∧ exec .mtU32 (engine []) = .next (mtU32 (engine [])) ∧
      exec .mtU32 State.reset = .next (mtU32 State.reset) ∧
      exec .drawMain (engine []) = .next (drawMainStart (engine [])) ∧
      drawing.fault = none ∧ drawing.busy = true :=
  ⟨rfl, rfl, rfl, rfl, rfl, rfl⟩

theorem witness_StepsKeepTheStream :
    step (engine [0x00000003]) = .next (mtU32 (engine [0x00000003])) := rfl

theorem witness_StatusRegisterLayout :
    faulted.fault = some .mtNotSeeded ∧ (engine []).fault = none ∧ HostAction.present 0 ≠ .reset := by
  decide

/-- A completed INIT (R84) from a state that meets its duties. -/
theorem witness_init_completes :
    exec .init (engine []) = .next (init Config.params (engine [])) ∧
      (init Config.params (engine [])).fault = none := by
  have h : checkWeak (weakAnswer (engine [])) = .ok (F64.ofBits half) := checkWeak_ok half_inUnit
  exact ⟨rfl, by rw [init_of_ok h]; rfl⟩

theorem witness_MtValidLifecycle :
    step (engine [0x00000003]) = .next (mtU32 (engine [0x00000003])) ∧
      mtValid (engine [0x00000003]) = true ∧
      step { State.reset with stream := [2, 7] } =
        .next (mtSeedCommand 7 { State.reset with stream := [2, 7] }) ∧
      mtValid { State.reset with stream := [2, 7] } = false ∧
      mtValid (mtSeedCommand 7 { State.reset with stream := [2, 7] }) = true :=
  ⟨rfl, rfl, rfl, rfl, rfl⟩

theorem witness_CcValidLifecycle :
    step { engine [0x00000001] with cc := none } =
        .next (init Config.params { engine [0x00000001] with cc := none }) ∧
      ccValid { engine [0x00000001] with cc := none } = false ∧
      ccValid (init Config.params { engine [0x00000001] with cc := none }) = true ∧
      mtValid { engine [0x00000001] with cc := none } = true := by
  have h : checkWeak (weakAnswer { engine [0x00000001] with cc := none }) =
      .ok (F64.ofBits half) := checkWeak_ok half_inUnit
  exact ⟨rfl, rfl, by rw [init_of_ok h]; rfl, rfl⟩

theorem witness_BusyWhileDrawing :
    step (engine [0x00000008]) = .next (drawMainStart (engine [0x00000008])) ∧
      (engine [0x00000008]).busy = false ∧ (drawMainStart (engine [0x00000008])).busy = true ∧
      drawing.busy = true ∧ drawing.fault = none ∧ drawing.cc = some 6 ∧
      (drawStep (paramsB none) drawing).fault = none := by
  refine ⟨rfl, rfl, rfl, rfl, rfl, rfl, ?_⟩
  decide +kernel

/-- A step from a state that meets the invariant and that is not reset: a DRAW.MAIN is about to
start. -/
theorem witness_StepsKeepTheInvariant :
    Inv (engine [0x00000008]) ∧
      step (engine [0x00000008]) = .next (drawMainStart (engine [0x00000008])) := by
  refine ⟨?_, rfl⟩
  constructor <;> simp [engine, State.reset, mtState]

theorem witness_ReachableStatesMeetTheInvariant : Reachable (hostAct (.present 8) State.reset) :=
  .host _ .reset

theorem witness_FaultsArePrecise :
    (engine [0x00000103]).fault = none ∧ (engine [0x00000103]).busy = false ∧
      fetch (engine [0x00000103]) = .illegalCommand ∧
      exec .mtU32 State.reset = .next (mtU32 State.reset) ∧ (mtU32 State.reset).fault ≠ none ∧
      drawing.fault = none ∧ (drawStep (paramsB (some 6)) drawing).fault ≠ none := by
  refine ⟨rfl, rfl, by decide, rfl, by decide, rfl, by decide⟩

/-- Both engines valid, with the weak source unavailable, and with a reading of 1.0. -/
theorem witness_CombinerFaultPriority :
    (engine []).mt ≠ none ∧ (engine []).cc ≠ none ∧
      weakAnswer { engine [] with weakAnswers := [none] } = none ∧
      weakAnswer { engine [] with weakAnswers := [some 0x3FF0000000000000] } =
        some 0x3FF0000000000000 ∧
      (F64.ofBits 0x3FF0000000000000).inUnit = false := by
  refine ⟨by decide, by decide, rfl, rfl, by decide +kernel⟩

theorem witness_InitFaultsOnBadEntropy :
    weakAnswer { State.reset with weakAnswers := [none] } = none ∧
      weakAnswer { State.reset with weakAnswers := [some 0x7FF8000000000000] } =
        some 0x7FF8000000000000 ∧
      (F64.ofBits 0x7FF8000000000000).inUnit = false := by
  refine ⟨rfl, rfl, by decide +kernel⟩

theorem witness_CommandFrames :
    exec .mtU32 (engine []) = .next (mtU32 (engine [])) ∧ (mtU32 (engine [])).fault = none :=
  ⟨rfl, rfl⟩

/-- The reading and the two ends of its range, 0.0 and 1 - 2^-53. -/
theorem witness_InitConstructsTheEngine :
    weakAnswer (engine []) = some half ∧ (F64.ofBits half).inUnit = true ∧
      (F64.ofBits 0x0000000000000000).inUnit = true ∧
      (F64.ofBits 0x3FEFFFFFFFFFFFFF).inUnit = true := by
  refine ⟨rfl, by decide +kernel, by decide +kernel, by decide +kernel⟩

theorem witness_ScaledSampleRange : (F64.ofBits 0x8000000000000000).inUnit = true := by
  decide +kernel

theorem witness_ConstructionOrder :
    exec (.mtSeed 7) (engine []) = .next (mtSeedCommand 7 (engine [])) ∧
      exec .init (mtSeedCommand 7 (engine [])) =
        .next (init Config.params (mtSeedCommand 7 (engine []))) := ⟨rfl, rfl⟩

theorem witness_SeedingRecurrence : (mtSeed 7).words[0]? = some 7 ∧ 622 + 1 < 624 := by
  refine ⟨?_, by decide⟩
  simp [mtSeed, seedWord]

/-- The indices where the cases of the twist meet. -/
theorem witness_TwistIsInPlace : 226 < 624 ∧ 227 < 624 ∧ 622 < 624 ∧ 623 < 624 := by decide

theorem witness_ExtractionReadsAtCursor :
    mtState.mti < 624 ∧ { mtState with mti := 623 }.mti < 624 ∧
      624 ≤ { mtState with mti := 624 }.mti := by decide

theorem witness_NormalizationRange : (1 : Word) ≠ 0 ∧ (0xFFFFFFFE : Word) ≠ 0xFFFFFFFF := by decide

theorem witness_MtU32Extracts : (engine []).mt = some mtState := rfl

theorem witness_MtF64Extracts : (engine []).mt = some mtState := rfl

theorem witness_MtF64Range :
    (engine []).mt = some mtState ∧ exec .mtF64 (engine []) = .next (mtF64 (engine [])) := ⟨rfl, rfl⟩

theorem witness_ExtractionSequence : 1 ≤ 1 ∧ 1 ≤ 624 ∧ 1 ≤ 625 := by decide

theorem witness_CcU32Extracts : (engine []).cc = some 0 := rfl

theorem witness_CcF64Extracts : (engine []).cc = some 0 := rfl

theorem witness_CcValuesAreTheUnitInterval :
    (engine []).cc ≠ none ∧ exec .ccF64 (engine []) = .next (ccF64 Config.params (engine [])) :=
  ⟨by decide, rfl⟩

theorem witness_HybridCombines :
    (engine []).mt = some mtState ∧ (engine []).cc = some 0 ∧ weakAnswer (engine []) = some half ∧
      (F64.ofBits half).inUnit = true := ⟨rfl, rfl, rfl, half_inUnit⟩

theorem witness_HybridRange :
    ∃ h t, hybridWord paramsA (engine []) = .word h t :=
  ⟨_, _, hybridWord_of_ok rfl rfl (checkWeak_ok half_inUnit)⟩

theorem witness_MainIndexRange : (F64.ofBits 0x3FEFFFFFFFFFFFFF).inUnit = true := by decide +kernel

theorem witness_PbIndexRange :
    (F64.ofBits half).inUnit = true ∧ F64.ofBits 0x3FF0000000000000 = F64.ofNat 1 ∧
      (0xFFFFFFFE : Word) ≠ 0xFFFFFFFF ∧ (0x09D89D89 : Word).toNat < 0x09D89D8A := by
  refine ⟨half_inUnit, by decide +kernel, by decide, by decide⟩

theorem witness_DrawMainStarts : (engine []).cc ≠ none := by decide

/-- A draw step under no limit, and at the last draw a limit allows. -/
theorem witness_DrawStepDrawsOneCandidate :
    drawing.fault = none ∧ drawing.busy = true ∧ drawing.cc = some 6 ∧
      (∀ l, (paramsB none).maxDraws = some l → drawing.ndraw < l) ∧
      ∀ l, (paramsB (some 7)).maxDraws = some l → drawing.ndraw < l := by
  refine ⟨rfl, rfl, rfl, nofun, ?_⟩
  rintro l ⟨⟩
  decide

theorem witness_CompletionSortsTheValues :
    [1, 35, 69, 7, 14].length = 5 ∧ [1, 35, 69, 7, 14].Nodup ∧
      ∀ k ∈ [1, 35, 69, 7, 14], k ≤ 69 := by decide

/-- V-DM-02: the run that completes after seven draws. -/
theorem witness_DrawMainResults :
    (engine [8]).fault = none ∧ (engine [8]).cc ≠ none ∧
      (drawRun (paramsB none) 7 (drawMainStart (engine [8]))).busy = false ∧
      (drawRun (paramsB none) 7 (drawMainStart (engine [8]))).fault = none := by
  refine ⟨rfl, by decide, by decide +kernel, by decide +kernel⟩

theorem witness_NoResultBeforeCompletion :
    (drawStep (paramsB none) { drawing with acc := [] }).busy = true := by decide +kernel

theorem witness_DrawLimitFaults :
    (paramsB none).maxDraws = none ∧ drawing.cc ≠ none ∧ (paramsB (some 6)).maxDraws = some 6 ∧
      6 ≤ drawing.ndraw ∧ (paramsB (some 4)).maxDraws = some 4 ∧ (engine [8]).fault = none ∧
      4 < 5 := by decide

/-- CC-STUB-A gives 0.5 for ever here, so one index. -/
theorem witness_HangOnFewIndices :
    paramsA.maxDraws = none ∧ (engine [8]).fault = none ∧ (engine [8]).cc = some 0 ∧
      [35].length ≤ 4 ∧ (∀ n, candidate paramsA (ccAfter paramsA 0 n) ∈ [35]) ∧
      (drawRun (paramsB none) 7 (drawMainStart (engine [8]))).busy = false := by
  refine ⟨rfl, rfl, rfl, by decide, fun n => ?_, by decide +kernel⟩
  have h : ∀ c, candidate paramsA c = 35 := fun c => by
    have h0 : candidate paramsA 0 = 35 := by decide +kernel
    exact h0
  rw [h]
  exact List.mem_singleton.2 rfl

theorem witness_DrawMainCompletesOnFiveIndices :
    (paramsB none).maxDraws = none ∧ (engine [8]).fault = none ∧ (engine [8]).cc = some 0 ∧
      5 ≤ (candidates (paramsB none) 0 7).dedup.length := by
  refine ⟨rfl, rfl, rfl, by decide +kernel⟩

theorem witness_DrawPbDraws :
    (engine []).mt = some mtState ∧ (engine []).cc = some 0 ∧ weakAnswer (engine []) = some half ∧
      (F64.ofBits half).inUnit = true := ⟨rfl, rfl, rfl, half_inUnit⟩

theorem witness_RoundingIsToNearestEven :
    0 < 3 ∧ Representable 1 ∧ 1 ≠ 0 ∧ 0 < unitsOfOverflow ∧ unitsOfOverflow ≤ unitsOfOverflow :=
  ⟨by decide, ⟨1, 0, by decide, by decide⟩, by decide,
    unitsOfOne_pos.trans_le unitsOfOne_le_unitsOfOverflow, le_rfl⟩

theorem witness_EncodingRoundTrip : F64.ofBits 0x3FF0000000000000 ≠ .nan := by decide +kernel

theorem witness_ResfHalves :
    readResfHi (engine []) = readResfHi State.reset ∧ readResfLo (engine []) = readResfLo State.reset := by
  decide

end Sys2Proof.Tests
end

/-! ## 10_state.md: the STATUS register and the life of its bits -/

namespace Sys2Proof.Machine

/-! ### What a command and a step do to the bits of STATUS -/

/-- The commands that seed the MT engine (R26). -/
def seedsMt : Instr → Bool
  | .init | .mtSeed _ => true
  | .mtU32 | .mtF64 | .ccU32 | .ccF64 | .hybrid | .drawMain | .drawPb => false

theorem seedsMt_eq_true {i : Instr} : seedsMt i = true ↔ i = .init ∨ ∃ seed, i = .mtSeed seed := by
  cases i <;> simp [seedsMt]

/-- What a command that raises no fault does to STATUS: the valid bits are only ever set, each by the
commands of R26 and R27, and BUSY by DRAW.MAIN alone (R28). -/
structure CompletesStatus (i : Instr) (s t : State) : Prop where
  fault : t.fault = s.fault
  mtValid : mtValid t = (mtValid s || seedsMt i)
  ccValid : ccValid t = (ccValid s || decide (i = .init))
  busy : t.busy = (s.busy || decide (i = .drawMain))

/-- R130: the combiner faults before any draw, or gives a word and leaves STATUS as it was. -/
theorem hybridWord_status (P : Params) (s : State) :
    (∃ c t, hybridWord P s = .fault c t ∧ (t = s ∨ t = s.queriedWeak)) ∨
      ∃ w t, hybridWord P s = .word w t ∧ t.fault = s.fault ∧ t.busy = s.busy ∧
        mtValid t = mtValid s ∧ ccValid t = ccValid s := by
  rcases hybridWord_cases P s with
    ⟨-, hw⟩ | ⟨_, -, -, hw⟩ | ⟨_, _, _, -, -, -, hw⟩ | ⟨m, c, r, hm, hc, -, hw⟩
  · exact .inl ⟨_, _, hw, .inl rfl⟩
  · exact .inl ⟨_, _, hw, .inl rfl⟩
  · exact .inl ⟨_, _, hw, .inr rfl⟩
  · exact .inr ⟨_, _, hw, rfl, rfl, by simp [combinerDraws, mtValid, hm],
      by simp [combinerDraws, ccValid, hc]⟩

/-- Every command faults, at its first check or on the weak reading it has queried, or completes. -/
theorem exec_cases {i : Instr} {s t : State} (h : exec i s = .next t) :
    (∃ c, t = s.raise c ∨ t = s.queriedWeak.raise c) ∨ CompletesStatus i s t := by
  cases i with
  | init =>
    rw [exec_init] at h
    cases h
    rcases hw : checkWeak (weakAnswer s) with c | r
    · exact .inl ⟨c, .inr (init_of_error hw)⟩
    · rw [init_of_ok hw]
      refine .inr ?_
      constructor <;> simp [mtValid, ccValid, seedsMt]
  | mtSeed seed =>
    rw [exec_mtSeed] at h
    cases h
    rw [mtSeedCommand_eq]
    refine .inr ?_
    constructor <;> simp [mtValid, ccValid, seedsMt]
  | mtU32 =>
    rw [exec_mtU32] at h
    cases h
    rcases hm : s.mt with _ | m
    · exact .inl ⟨_, .inl (mtU32_of_none hm)⟩
    · rw [mtU32_of_some hm]
      refine .inr ?_
      constructor <;> simp [mtValid, ccValid, seedsMt, hm]
  | mtF64 =>
    rw [exec_mtF64] at h
    cases h
    rcases hm : s.mt with _ | m
    · exact .inl ⟨_, .inl (mtF64_of_none hm)⟩
    · rw [mtF64_of_some hm]
      refine .inr ?_
      constructor <;> simp [mtValid, ccValid, seedsMt, hm]
  | ccU32 =>
    rw [exec_ccU32] at h
    cases h
    rcases hc : s.cc with _ | c
    · exact .inl ⟨_, .inl (ccU32_of_none hc)⟩
    · rw [ccU32_of_some hc]
      refine .inr ?_
      constructor <;> simp [mtValid, ccValid, seedsMt, hc]
  | ccF64 =>
    rw [exec_ccF64] at h
    cases h
    rcases hc : s.cc with _ | c
    · exact .inl ⟨_, .inl (ccF64_of_none hc)⟩
    · rw [ccF64_of_some hc]
      refine .inr ?_
      constructor <;> simp [mtValid, ccValid, seedsMt, hc]
  | drawMain =>
    rw [exec_drawMain] at h
    cases h
    rcases hc : s.cc with _ | c
    · exact .inl ⟨_, .inl (drawMainStart_of_none hc)⟩
    · rw [drawMainStart_of_some hc]
      refine .inr ?_
      constructor <;> simp [mtValid, ccValid, seedsMt]
  | hybrid =>
    rw [exec_hybrid] at h
    cases h
    rcases hybridWord_status Config.params s with
      ⟨c, t, hw, rfl | rfl⟩ | ⟨w, t, hw, hf, hb, hm, hc⟩
    · exact .inl ⟨c, .inl (hybrid_of_fault hw)⟩
    · exact .inl ⟨c, .inr (hybrid_of_fault hw)⟩
    · rw [hybrid_of_word hw]
      exact .inr ⟨hf, by simpa [mtValid, seedsMt] using hm, by simpa [ccValid] using hc,
        by simpa using hb⟩
  | drawPb =>
    rw [exec_drawPb] at h
    cases h
    rcases hybridWord_status Config.params s with
      ⟨c, t, hw, rfl | rfl⟩ | ⟨w, t, hw, hf, hb, hm, hc⟩
    · exact .inl ⟨c, .inl (drawPb_of_fault hw)⟩
    · exact .inl ⟨c, .inr (drawPb_of_fault hw)⟩
    · rw [drawPb_of_word hw]
      exact .inr ⟨hf, by simpa [mtValid, seedsMt] using hm, by simpa [ccValid] using hc,
        by simpa using hb⟩

/-- A command that leaves no fault has completed. -/
theorem exec_completes {i : Instr} {s t : State} (h : exec i s = .next t) (hf : t.fault = none) :
    CompletesStatus i s t := by
  rcases exec_cases h with ⟨c, rfl | rfl⟩ | hc
  · cases hf
  · cases hf
  · exact hc

/-- Everything that a step with a next state can be: a draw step, a command, or a reserved word. -/
theorem step_next_cases {s t : State} (h : step s = .next t) :
    (s.busy = true ∧ t = drawStep Config.params s) ∨
      (∃ i rest, fetch s = .instr i rest ∧ exec i s = .next t) ∨
      t = s.raise .illegalCommand := by
  rcases step_cases s with ⟨-, hs⟩ | ⟨-, hb, hs⟩ | ⟨-, -,
    ⟨i, rest, hi, hs⟩ | ⟨-, hs⟩ | ⟨-, hs⟩ | ⟨-, hs⟩⟩ <;> rw [hs] at h
  · cases h
  · cases h; exact .inl ⟨hb, rfl⟩
  · exact .inr (.inl ⟨i, rest, hi, h⟩)
  · cases h; exact .inr (.inr rfl)
  · cases h
  · cases h

/-- A draw step advances the stream cipher and changes neither valid bit. -/
theorem drawStep_valid (P : Params) (s : State) :
    mtValid (drawStep P s) = mtValid s ∧ ccValid (drawStep P s) = ccValid s := by
  rcases drawStep_cases P s with
    ⟨-, h⟩ | ⟨c, -, -, h⟩ | ⟨c, hc, -, -, h⟩ | ⟨c, hc, -, -, h⟩ <;> rw [h]
  · exact ⟨rfl, rfl⟩
  · exact ⟨rfl, rfl⟩
  · simp [drawComplete_eq, drawn, mtValid, ccValid, hc]
  · simp [drawn, mtValid, ccValid, hc]

/-- A step either runs a command to completion, or leaves the valid bits alone and does not set
BUSY. -/
theorem step_status {s t : State} (h : step s = .next t) :
    (∃ i rest, fetch s = .instr i rest ∧ CompletesStatus i s t) ∨
      (mtValid t = mtValid s ∧ ccValid t = ccValid s ∧ (t.busy = true → s.busy = true)) := by
  rcases step_next_cases h with ⟨hb, rfl⟩ | ⟨i, rest, hi, he⟩ | rfl
  · obtain ⟨hm, hc⟩ := drawStep_valid Config.params s
    exact .inr ⟨hm, hc, fun _ => hb⟩
  · rcases exec_cases he with ⟨c, rfl | rfl⟩ | hc
    · exact .inr ⟨rfl, rfl, nofun⟩
    · exact .inr ⟨rfl, rfl, nofun⟩
    · exact .inl ⟨i, rest, hi, hc⟩
  · exact .inr ⟨rfl, rfl, nofun⟩

/-! ### The valid bits as presence -/

theorem mt_none_of_invalid {s : State} (h : mtValid s = false) : s.mt = none := by
  simpa [mtValid] using h

theorem cc_none_of_invalid {s : State} (h : ccValid s = false) : s.cc = none := by
  simpa [ccValid] using h

/-- R163: the combiner reports an unseeded MT engine first. -/
theorem hybridWord_of_unseeded {P : Params} {s : State} (hm : s.mt = none) :
    hybridWord P s = .fault .mtNotSeeded s := by
  unfold hybridWord
  rw [hm]

/-- R163: the combiner reports an unkeyed stream cipher once the MT engine is seeded. -/
theorem hybridWord_of_unkeyed {P : Params} {s : State} (hm : mtValid s = true) (hc : s.cc = none) :
    hybridWord P s = .fault .ccNotKeyed s := by
  obtain ⟨m, hm⟩ := Option.isSome_iff_exists.1 hm
  unfold hybridWord
  rw [hm, hc]

/-! ### The layout of STATUS (R25) -/

/-- R25: STATUS bit by bit. -/
theorem statusWord_getLsbD (s : State) (i : Nat) :
    (statusWord s).getLsbD i =
      match i with
      | 0 => mtValid s
      | 1 => ccValid s
      | 2 => s.busy
      | 3 => faultBit s
      | j + 4 => decide (4 ≤ j) && (causeField s).getLsbD (j - 4) := by
  change BitVec.getLsbD (w := 16 + 8 + 4 + 1 + 1 + 1 + 1) _ i = _
  unfold statusWord
  simp only [BitVec.getLsbD_append]
  match i with
  | 0 | 1 | 2 | 3 => simp
  | j + 4 =>
    by_cases h4 : j < 4
    · simp [h4]
    by_cases h8 : j - 4 < 8
    · simp [h4, h8, Nat.le_of_not_lt h4]
    · simp [h4, h8, BitVec.getLsbD_of_ge (causeField s) _ (Nat.le_of_not_lt h8)]

/-- R25: bits 15:8 of STATUS are CAUSE. -/
theorem statusWord_cause (s : State) : (statusWord s).extractLsb' 8 8 = causeField s := by
  apply BitVec.eq_of_getLsbD_eq
  intro i hi
  simp [statusWord_getLsbD, hi, show 8 + i = (i + 4) + 4 by omega]

/-- R25: bits 7:4 of STATUS are hardwired 0. -/
theorem statusWord_reserved_low (s : State) : (statusWord s).extractLsb' 4 4 = 0#4 := by
  apply BitVec.eq_of_getLsbD_eq
  intro i hi
  simp [statusWord_getLsbD, Nat.add_comm 4 i, Nat.not_le.2 hi]

/-- R25: bits 31:16 of STATUS are hardwired 0. -/
theorem statusWord_reserved_high (s : State) : (statusWord s).extractLsb' 16 16 = 0#16 := by
  apply BitVec.eq_of_getLsbD_eq
  intro i hi
  simp [statusWord_getLsbD, show 16 + i = (i + 12) + 4 by omega]

/-- Presenting words and answering queries changes no bit of STATUS. -/
theorem readStatus_hostAct {a : HostAction} (ha : a ≠ .reset) (s : State) :
    readStatus (hostAct a s) = readStatus s := by
  cases a with
  | present w => rfl
  | answerWeak r => rfl
  | answerTime t => rfl
  | reset => exact absurd rfl ha

/-! ### The statements -/

/-- Settles O16: a completed command and any step as `exec_completes` and `step_status` give them. -/
theorem mtValidLifecycle : Obligations.MtValidLifecycle := by
  refine ⟨fun s t h hf => ?_, fun seed s t h => ?_, fun s t h hs => ?_, fun s t h hs ht => ?_,
    fun a s => ?_, fun s i hs hi => ?_⟩
  · rw [(exec_completes h hf).mtValid]
    exact Bool.or_true _
  · rw [exec_mtSeed] at h
    cases h
    rfl
  · rcases step_status h with ⟨i, rest, -, hc⟩ | ⟨hm, -⟩
    · rw [hc.mtValid, hs]
      rfl
    · exact hm.trans hs
  · rcases step_status h with ⟨i, rest, hi, hc⟩ | ⟨hm, -⟩
    · rw [hc.mtValid, hs] at ht
      exact ⟨i, rest, hi, seedsMt_eq_true.1 ht⟩
    · exact absurd (hm.symm.trans ht) (by simp [hs])
  · cases a <;> rfl
  · have hm := mt_none_of_invalid hs
    have hw := hybridWord_of_unseeded (P := Config.params) hm
    simp only [List.mem_cons, List.not_mem_nil, or_false] at hi
    rcases hi with rfl | rfl | rfl | rfl
    · exact congrArg _ (mtU32_of_none hm)
    · exact congrArg _ (mtF64_of_none hm)
    · exact congrArg _ (hybrid_of_fault hw)
    · exact congrArg _ (drawPb_of_fault hw)

/-- Settles O17, by the same two lemmas as O16. -/
theorem ccValidLifecycle : Obligations.CcValidLifecycle := by
  refine ⟨fun s t h hf => ?_, fun seed s t h => ?_, fun s t h hs => ?_, fun s t h hs ht => ?_,
    fun a s => ?_, fun s i hs hi => ?_, fun s i hs hm hi => ?_⟩
  · rw [(exec_completes h hf).ccValid]
    exact Bool.or_true _
  · rw [exec_mtSeed] at h
    cases h
    rfl
  · rcases step_status h with ⟨i, rest, -, hc⟩ | ⟨-, hc, -⟩
    · rw [hc.ccValid, hs]
      rfl
    · exact hc.trans hs
  · rcases step_status h with ⟨i, rest, hi, hc⟩ | ⟨-, hc, -⟩
    · rw [hc.ccValid, hs] at ht
      obtain rfl : i = .init := of_decide_eq_true ht
      exact ⟨rest, hi⟩
    · exact absurd (hc.symm.trans ht) (by simp [hs])
  · cases a <;> rfl
  · have hc := cc_none_of_invalid hs
    simp only [List.mem_cons, List.not_mem_nil, or_false] at hi
    rcases hi with rfl | rfl | rfl
    · exact congrArg _ (ccU32_of_none hc)
    · exact congrArg _ (ccF64_of_none hc)
    · exact congrArg _ (drawMainStart_of_none hc)
  · have hw := hybridWord_of_unkeyed (P := Config.params) hm (cc_none_of_invalid hs)
    simp only [List.mem_cons, List.not_mem_nil, or_false] at hi
    rcases hi with rfl | rfl
    · exact congrArg _ (hybrid_of_fault hw)
    · exact congrArg _ (drawPb_of_fault hw)

/-- Settles O18: BUSY rises only as a DRAW.MAIN completes its start step, and a draw step without a
fault drops it exactly when it accepts the fifth value. -/
theorem busyWhileDrawing : Obligations.BusyWhileDrawing := by
  refine ⟨fun s t h hf => ?_, fun s t h hs ht => ?_, fun s hf hb => ?_,
    fun P s c hb _ hc hf => ?_⟩
  · rw [(exec_completes h hf).busy]
    exact Bool.or_true _
  · rcases step_status h with ⟨i, rest, hi, hc⟩ | ⟨-, -, hb⟩
    · rw [hc.busy, hs] at ht
      obtain rfl : i = .drawMain := of_decide_eq_true ht
      exact ⟨rest, hi⟩
    · exact absurd (hb ht) (by simp [hs])
  · simp [step, faultBit, hf, hb]
  · rcases drawStep_cases P s with
      ⟨-, h⟩ | ⟨_, -, -, h⟩ | ⟨c', hc', -, h5, h⟩ | ⟨c', hc', -, h5, h⟩ <;> rw [h] at hf ⊢
    · cases hf
    · cases hf
    · obtain rfl : c' = c := Option.some.inj (hc'.symm.trans hc)
      exact iff_of_false nofun (not_not_intro h5)
    · obtain rfl : c' = c := Option.some.inj (hc'.symm.trans hc)
      exact iff_of_true hb h5

/-- Settles O15: the bits by `statusWord_getLsbD`, the fields by the lemma on each. -/
theorem statusRegisterLayout : Obligations.StatusRegisterLayout := by
  refine ⟨fun s => ⟨statusWord_getLsbD s 0, statusWord_getLsbD s 1, statusWord_getLsbD s 2,
    statusWord_getLsbD s 3, statusWord_reserved_low s, statusWord_reserved_high s,
    fun c hc => ?_, fun hc => ?_⟩, rfl, rfl, rfl, rfl, rfl, rfl, rfl,
    fun a s ha => readStatus_hostAct ha s⟩
  · simp [statusWord_cause, causeField, hc]
  · simp [statusWord_cause, causeField, hc]

end Sys2Proof.Machine

/-! ## 20_memory.md: the command stream and the key bytes -/

namespace Sys2Proof.Machine

/-! ### Nothing the block does writes the command stream (R53) -/

theorem init_stream (P : Params) (s : State) : (init P s).stream = s.stream := by
  rcases h : checkWeak (weakAnswer s) with c | r
  · simp [init_of_error h]
  · simp [init_of_ok h]

theorem mtU32_stream (s : State) : (mtU32 s).stream = s.stream := by
  rcases h : s.mt with _ | m
  · simp [mtU32_of_none h]
  · simp [mtU32_of_some h]

theorem mtF64_stream (s : State) : (mtF64 s).stream = s.stream := by
  rcases h : s.mt with _ | m
  · simp [mtF64_of_none h]
  · simp [mtF64_of_some h]

theorem ccU32_stream (P : Params) (s : State) : (ccU32 P s).stream = s.stream := by
  rcases h : s.cc with _ | c
  · simp [ccU32_of_none h]
  · simp [ccU32_of_some h]

theorem ccF64_stream (P : Params) (s : State) : (ccF64 P s).stream = s.stream := by
  rcases h : s.cc with _ | c
  · simp [ccF64_of_none h]
  · simp [ccF64_of_some h]

/-- R130: in a fault as with a word, the combiner hands on the stream it was given. -/
theorem hybridWord_stream (P : Params) (s : State) :
    ∃ t, ((∃ e, hybridWord P s = .fault e t) ∨ ∃ w, hybridWord P s = .word w t) ∧
      t.stream = s.stream := by
  rcases hybridWord_cases P s with
    ⟨-, h⟩ | ⟨_, -, -, h⟩ | ⟨_, _, _, -, -, -, h⟩ | ⟨_, _, _, -, -, -, h⟩
  · exact ⟨_, .inl ⟨_, h⟩, rfl⟩
  · exact ⟨_, .inl ⟨_, h⟩, rfl⟩
  · exact ⟨_, .inl ⟨_, h⟩, rfl⟩
  · exact ⟨_, .inr ⟨_, h⟩, rfl⟩

theorem hybrid_stream (P : Params) (s : State) : (hybrid P s).stream = s.stream := by
  obtain ⟨t, ⟨e, h⟩ | ⟨w, h⟩, ht⟩ := hybridWord_stream P s
  · simp [hybrid_of_fault h, ht]
  · simp [hybrid_of_word h, ht]

theorem drawPb_stream (P : Params) (s : State) : (drawPb P s).stream = s.stream := by
  obtain ⟨t, ⟨e, h⟩ | ⟨w, h⟩, ht⟩ := hybridWord_stream P s
  · simp [drawPb_of_fault h, ht]
  · simp [drawPb_of_word h, ht]

theorem drawMainStart_stream (s : State) : (drawMainStart s).stream = s.stream := by
  rcases h : s.cc with _ | c
  · simp [drawMainStart_of_none h]
  · simp [drawMainStart_of_some h]

theorem drawStep_stream (P : Params) (s : State) : (drawStep P s).stream = s.stream := by
  rcases drawStep_cases P s with
    ⟨-, h⟩ | ⟨_, -, -, h⟩ | ⟨_, -, -, -, h⟩ | ⟨_, -, -, -, h⟩ <;> rw [h]
  · exact State.raise_stream s _
  · exact State.raise_stream s _
  · rw [drawComplete_eq]
    rfl
  · rfl

/-- R53: no command writes the stream. -/
theorem exec_stream {i : Instr} {s t : State} (h : exec i s = .next t) : t.stream = s.stream := by
  cases i with
  | init => cases h; exact init_stream _ s
  | mtSeed seed => cases h; rw [mtSeedCommand_eq]
  | mtU32 => cases h; exact mtU32_stream s
  | mtF64 => cases h; exact mtF64_stream s
  | ccU32 => cases h; exact ccU32_stream _ s
  | ccF64 => cases h; exact ccF64_stream _ s
  | hybrid => cases h; exact hybrid_stream _ s
  | drawMain => cases h; exact drawMainStart_stream s
  | drawPb => cases h; exact drawPb_stream _ s

/-- R53: no step writes the stream, be it a draw step, a command or the fault at a reserved word. -/
theorem step_stream {s t : State} (h : step s = .next t) : t.stream = s.stream := by
  rcases step_next_cases h with ⟨-, rfl⟩ | ⟨i, _, -, he⟩ | rfl
  · exact drawStep_stream _ s
  · exact exec_stream he
  · exact State.raise_stream s _

/-- Settles O13: steps by `step_stream`, and presenting a word is appending it. -/
theorem stepsKeepTheStream : Obligations.StepsKeepTheStream :=
  ⟨fun _ _ => step_stream, fun _ _ => rfl⟩

/-! ### The bytes of the key (R47, R82) -/

theorem deriveKey_getElem? (seed : Word) {n : Nat} (hn : n < 32) :
    (deriveKey seed)[n]? = some (keyByte seed n) := by
  simp [deriveKey, hn]

/-- R47: byte j of group i, counted from the group's low end. -/
theorem keyByte_group (seed : Word) (i : Nat) {j : Nat} (hj : j < 4) :
    keyByte seed (4 * i + j) = (keyGroup seed i).extractLsb' (8 * j) 8 := by
  have hdiv : (4 * i + j) / 4 = i := by omega
  have hmod : (4 * i + j) % 4 = j := by omega
  rw [keyByte, hdiv, hmod]

/-- Settles O28: the key's byte 4i + j is byte j of group i, whose word is the wrapping product. -/
theorem keyGroupsAreLittleEndian : Obligations.KeyGroupsAreLittleEndian := by
  intro seed i j
  have hn : 4 * i.val + j.val < 32 := by omega
  rw [deriveKey_getElem? seed hn, keyByte_group seed i.val j.isLt, keyGroup]

end Sys2Proof.Machine

/-! ## 30_encoding.md: the decoder -/

namespace Sys2Proof

/-! ### A command word is a reserved word or the word of an opcode -/

/-- R65: the reserved command words. -/
def ReservedWord (w : Word) : Prop :=
  rsvdField w ≠ 0 ∨ opcField w = 0x00 ∨ 0x0A ≤ (opcField w).toNat

/-- R63: the values of `OPC` that name no opcode. -/
theorem opcodeOf_eq_none {b : BitVec 8} : opcodeOf b = none ↔ b = 0x00 ∨ 0x0A ≤ b.toNat := by
  revert b
  decide

theorem reserved_or_opcode (w : Word) : ReservedWord w ∨ ∃ op : Opcode, w = op.word := by
  by_cases hr : rsvdField w = 0
  · cases ho : opcodeOf (opcField w) with
    | none => exact .inl (.inr (opcodeOf_eq_none.1 ho))
    | some op => exact .inr ⟨op, word_eq_of_opcode hr ho⟩
  · exact .inl (.inl hr)

@[simp] theorem opcField_word (op : Opcode) : opcField op.word = op.code := by
  cases op <;> rfl

/-! ### What the decoder says of each (R64) -/

theorem decode_reserved {w : Word} (hw : ReservedWord w) (rest : List Word) :
    decode (w :: rest) = .illegalCommand := by
  rw [decode_cons]
  rcases hw with hr | ho
  · rw [if_pos hr]
  · rw [opcodeOf_eq_none.2 ho]
    exact ite_self _

@[simp] theorem decode_word (op : Opcode) (rest : List Word) :
    decode (op.word :: rest) = op.assemble rest := by
  cases op <;> rfl

theorem Opcode.assemble_ne_illegalCommand (op : Opcode) (rest : List Word) :
    op.assemble rest ≠ .illegalCommand := by
  rcases op.assemble_cases rest with ⟨-, -, h⟩ | ⟨_, _, -, -, h⟩ | ⟨-, _, -, -, h⟩ <;> rw [h] <;>
    exact nofun

/-- R65: exactly the reserved words are illegal, whatever follows them. -/
theorem decode_eq_illegalCommand {w : Word} {rest : List Word} :
    decode (w :: rest) = .illegalCommand ↔ ReservedWord w := by
  refine ⟨fun h => ?_, fun hw => decode_reserved hw rest⟩
  rcases reserved_or_opcode w with hw | ⟨op, rfl⟩
  · exact hw
  · rw [decode_word] at h
    exact absurd h (op.assemble_ne_illegalCommand rest)

/-- Where decoding gives a command, the word is an opcode's. -/
theorem word_of_decode_instr {w : Word} {rest r : List Word} {i : Instr}
    (h : decode (w :: rest) = .instr i r) :
    ∃ op : Opcode, w = op.word ∧ op.assemble rest = .instr i r := by
  rcases reserved_or_opcode w with hw | ⟨op, rfl⟩
  · rw [decode_reserved hw] at h
    cases h
  · exact ⟨op, rfl, decode_word op rest ▸ h⟩

/-! ### Lengths (R66) -/

theorem Opcode.length_eq (op : Opcode) : op.length = if op.code = 0x02 then 2 else 1 := by
  cases op <;> rfl

/-- A command is as long as its opcode says, and so is what its decoding takes. -/
theorem Opcode.length_of_assemble {op : Opcode} {rest r : List Word} {i : Instr}
    (h : op.assemble rest = .instr i r) :
    (encode i).length = op.length ∧ rest.length + 1 = r.length + op.length := by
  cases op with
  | mtSeed =>
    cases rest with
    | nil => cases h
    | cons => cases h; exact ⟨rfl, rfl⟩
  | init | mtU32 | mtF64 | ccU32 | ccF64 | hybrid | drawMain | drawPb => cases h; exact ⟨rfl, rfl⟩

/-- Settles O2: the word is an opcode's, whose length `OPC` determines; and whether a word is illegal
does not depend on the words after it. -/
theorem lengthFollowsFromOpcode : Obligations.LengthFollowsFromOpcode := by
  refine ⟨fun w rest i r h => ?_, fun w rest rest' h => ?_⟩
  · obtain ⟨op, rfl, hop⟩ := word_of_decode_instr h
    rw [opcField_word, ← op.length_eq]
    exact op.length_of_assemble hop
  · exact decode_reserved (decode_eq_illegalCommand.1 h) rest'

end Sys2Proof

namespace Sys2Proof.Machine

/-! ### A step at a command boundary, by the decoder's verdict -/

section
variable {s : State} (hf : s.fault = none) (hb : s.busy = false)
include hf hb

theorem step_of_instr {i : Instr} {rest : List Word} (h : fetch s = .instr i rest) :
    step s = exec i s := by
  simp [step, faultBit, hf, hb, h]

theorem step_of_illegalCommand (h : fetch s = .illegalCommand) :
    step s = .next (s.raise .illegalCommand) := by
  simp [step, faultBit, hf, hb, h]

theorem step_of_noWord (h : fetch s = .noWord) : step s = .fault .noCommandWord := by
  simp [step, faultBit, hf, hb, h]

theorem step_of_operandMissing (h : fetch s = .operandMissing) :
    step s = .fault .operandMissing := by
  simp [step, faultBit, hf, hb, h]

end

/-- R162: with BUSY = 0 a fault changes FAULT and CAUSE alone. -/
theorem State.raise_of_idle {s : State} (hb : s.busy = false) (c : Cause) :
    s.raise c = { s with fault := some c } := by
  cases s
  cases hb
  rfl

/-- Settles O3: a reserved word is fetched as illegal, and no other word is. -/
theorem reservedWordsFault : Obligations.ReservedWordsFault := by
  refine ⟨fun s w rest hf hb hd hw => ?_, rfl, fun w rest => decode_eq_illegalCommand.1⟩
  have hfetch : fetch s = .illegalCommand := (congrArg decode hd).trans (decode_reserved hw rest)
  rw [step_of_illegalCommand hf hb hfetch, State.raise_of_idle hb]

/-- Settles O4: a word at cpos is reserved, and each such word ends in ILLEGAL_COMMAND, or it is the
word of one of the nine opcodes. -/
theorem decodeAtCommandBoundary : Obligations.DecodeAtCommandBoundary := by
  intro s hf hb
  cases hd : s.stream.drop s.cpos with
  | nil => exact step_of_noWord hf hb (congrArg decode hd)
  | cons w rest =>
    have hfetch : fetch s = decode (w :: rest) := congrArg decode hd
    rcases reserved_or_opcode w with hw | ⟨op, rfl⟩
    · have hs := step_of_illegalCommand hf hb (hfetch.trans (decode_reserved hw rest))
      dsimp only
      split
      · exact hs
      · next hr =>
        rcases hw.resolve_left hr with h0 | h10
        · rw [show w.extractLsb' 0 8 = 0x00#8 from h0]
          exact hs
        · obtain ⟨n, hn⟩ := Nat.exists_eq_add_of_le' h10
          rw [show (w.extractLsb' 0 8).toNat = n + 0x0A from hn]
          exact hs
    · cases op with
      | mtSeed =>
        cases rest with
        | nil => exact step_of_operandMissing hf hb hfetch
        | cons => exact step_of_instr hf hb hfetch
      | init | mtU32 | mtF64 | ccU32 | ccF64 | hybrid | drawMain | drawPb =>
        exact step_of_instr hf hb hfetch

end Sys2Proof.Machine

/-! ## 41_mt19937.md: seeding, the twist and extraction -/

namespace Sys2Proof.Machine

/-! ### Seeding (R95) -/

theorem mtSeed_words_getElem? (seed : Word) {i : Nat} (hi : i < 624) :
    (mtSeed seed).words[i]? = some (seedWord seed i) := by
  rw [Vector.getElem?_eq_getElem hi, mtSeed_words seed i hi]

/-- Settles O30: word i is `seedWord seed i`, whose recursion is the recurrence. -/
theorem seedingRecurrence : Obligations.SeedingRecurrence := by
  refine fun seed => ⟨mtSeed_words_getElem? seed (by decide), fun i prev hi hprev => ?_,
    mtSeed_mti seed⟩
  rw [mtSeed_words_getElem? seed (Nat.lt_of_succ_lt hi)] at hprev
  obtain rfl := Option.some.inj hprev
  exact mtSeed_words_getElem? seed hi

/-! ### The array between two iterations of the twist (R97) -/

/-- The array after the first `n` iterations of the twist. -/
def twistPrefix (mt : Vector Word 624) (n : Nat) (hn : n ≤ 624) : Vector Word 624 :=
  Nat.fold n (fun i hi => twistAt i (hi.trans_le hn)) mt

theorem twistWords_eq_twistPrefix (mt : Vector Word 624) :
    twistWords mt = twistPrefix mt 624 le_rfl := rfl

theorem twistPrefix_zero (mt : Vector Word 624) : twistPrefix mt 0 (Nat.zero_le _) = mt := rfl

theorem twistPrefix_succ (mt : Vector Word 624) {n : Nat} (hn : n < 624) :
    twistPrefix mt (n + 1) hn = twistAt n hn (twistPrefix mt n hn.le) := rfl

theorem wordAt_twistAt (mt : Vector Word 624) {i j : Nat} (hi : i < 624) (hj : j < 624) :
    wordAt (twistAt i hi mt) j =
      if i = j then twistWord (wordAt mt i) (wordAt mt (i + 1)) (wordAt mt (i + 397))
      else wordAt mt j := by
  rw [wordAt_of_lt _ j hj, twistAt_getElem, ← wordAt_of_lt mt i hi, ← wordAt_of_lt mt j hj]

/-- Iterations `a` to `b - 1` leave every word outside `a..b-1` as it was. -/
theorem wordAt_twistPrefix_of_outside (mt : Vector Word 624) {a b j : Nat} (hab : a ≤ b)
    (hb : b ≤ 624) (hj : j < 624) (hout : j < a ∨ b ≤ j) :
    wordAt (twistPrefix mt b hb) j = wordAt (twistPrefix mt a (hab.trans hb)) j := by
  induction b, hab using Nat.le_induction with
  | base => rfl
  | succ n han ih =>
    have hne : n ≠ j := by omega
    rw [twistPrefix_succ, wordAt_twistAt _ _ hj, if_neg hne]
    exact ih (Nat.le_of_succ_le hb) (by omega)

/-- Iteration `n` finds word `j` twisted if its own iteration has come, and old if not. -/
theorem wordAt_twistPrefix (mt : Vector Word 624) {n j : Nat} (hn : n ≤ 624) (hj : j < 624) :
    wordAt (twistPrefix mt n hn) j = if j < n then wordAt (twistWords mt) j else wordAt mt j := by
  split
  · next h => exact (wordAt_twistPrefix_of_outside mt hn le_rfl hj (.inl h)).symm
  · next h =>
    exact wordAt_twistPrefix_of_outside mt (Nat.zero_le n) hn hj (.inr (Nat.le_of_not_lt h))

/-- R97: iteration `i` gives word `i` its twisted value, from the array the iterations before it
left. -/
theorem wordAt_twistWords (mt : Vector Word 624) {i : Nat} (hi : i < 624) :
    wordAt (twistWords mt) i =
      twistWord (wordAt (twistPrefix mt i hi.le) i) (wordAt (twistPrefix mt i hi.le) (i + 1))
        (wordAt (twistPrefix mt i hi.le) (i + 397)) := by
  calc wordAt (twistWords mt) i
      = wordAt (twistPrefix mt (i + 1) hi) i := by
        rw [wordAt_twistPrefix mt hi hi, if_pos i.lt_succ_self]
    _ = _ := by rw [twistPrefix_succ, wordAt_twistAt _ hi hi, if_pos rfl]

/-! ### The three words iteration `i` reads -/

theorem wordAt_mod (mt : Vector Word 624) (k : Nat) : wordAt mt (k % 624) = wordAt mt k := by
  simp only [wordAt, Nat.mod_mod]

section
variable (mt : Vector Word 624) {i : Nat} (hi : i < 624)

theorem twistPrefix_current : wordAt (twistPrefix mt i hi.le) i = wordAt mt i := by
  rw [wordAt_twistPrefix mt hi.le hi, if_neg (lt_irrefl i)]

/-- R97: the next word is old, but for i = 623, where it is the twisted word 0. -/
theorem twistPrefix_next :
    wordAt (twistPrefix mt i hi.le) (i + 1) =
      if i = 623 then wordAt (twistWords mt) 0 else wordAt mt (i + 1) := by
  split
  · next h =>
    subst h
    rw [← wordAt_mod, wordAt_twistPrefix mt _ (by decide), if_pos (by decide)]
  · next h => rw [wordAt_twistPrefix mt hi.le (by omega), if_neg (by omega)]

/-- R97: the far word is old up to i = 226, where i + 397 is 623, and twisted from i = 227 on. -/
theorem twistPrefix_far :
    wordAt (twistPrefix mt i hi.le) (i + 397) =
      if i < 227 then wordAt mt (i + 397) else wordAt (twistWords mt) (i - 227) := by
  split
  · next h => rw [wordAt_twistPrefix mt hi.le (by omega), if_neg (by omega)]
  · next h =>
    have hwrap : (i + 397) % 624 = i - 227 := by omega
    rw [← wordAt_mod, hwrap, wordAt_twistPrefix mt hi.le (by omega), if_pos (by omega)]

end

/-- R97: one new word, with the conditional XOR of `MATRIX_A` as an XOR of `MATRIX_A` or 0. -/
theorem twistWord_eq (cur next far : Word) :
    twistWord cur next far =
      let y := (cur &&& 0x80000000#32) ||| (next &&& 0x7FFFFFFF#32)
      (far ^^^ (y >>> 1)) ^^^ (if y.getLsbD 0 then 0x9908B0DF#32 else 0#32) := by
  extract_lets y
  change (if y.getLsbD 0 then (far ^^^ (y >>> 1)) ^^^ 0x9908B0DF#32 else far ^^^ (y >>> 1)) = _
  split
  · rfl
  · exact BitVec.xor_zero.symm

/-- Settles O31: iteration i makes word i, and the three words it reads are old or twisted as the
lemma on each says. -/
theorem twistIsInPlace : Obligations.TwistIsInPlace := by
  refine fun m i hi => ⟨twist_mti m, ?_⟩
  change wordAt (twistWords m.words) i = _
  rw [wordAt_twistWords m.words hi, twistPrefix_current m.words hi, twistPrefix_next m.words hi,
    twistPrefix_far m.words hi, twistWord_eq]
  rfl

/-! ### Extraction (R99) -/

/-- Settles O32: an extraction reads and advances in the refilled state, which below 624 is the state
itself and from 624 on the twisted one, with cursor 0. -/
theorem extractionReadsAtCursor : Obligations.ExtractionReadsAtCursor := by
  refine fun m => ⟨fun h => ?_, fun h => ?_⟩
  · simp only [mtNext, refill_of_lt h]
  · simp only [mtNext, refill_of_ge h, twist_mti]

end Sys2Proof.Machine

/-! ## 44_constrained_sampler.md: the draw limit and the hang -/

namespace Sys2Proof.Machine

/-! ### A draw step under the limit and at it (R144) -/

theorem drawLimitReached_eq_false {o : Option Nat} {n : Nat} :
    drawLimitReached o n = false ↔ ∀ l, o = some l → n < l := by
  cases o <;> simp [drawLimitReached]

theorem drawStep_fault_of_unlimited {P : Params} {s : State} (hP : P.maxDraws = none)
    (hc : s.cc ≠ none) : (drawStep P s).fault = s.fault := by
  rcases drawStep_cases P s with
    ⟨hc', -⟩ | ⟨_, -, hl, -⟩ | ⟨_, -, -, -, h⟩ | ⟨_, -, -, -, h⟩
  · exact absurd hc' hc
  · rw [hP] at hl
    cases hl
  · rw [h, drawComplete_eq]
    rfl
  · rw [h]
    rfl

theorem drawStep_at_limit {P : Params} {s : State} {l : Nat} (hP : P.maxDraws = some l)
    (hc : s.cc ≠ none) (hl : l ≤ s.ndraw) : drawStep P s = s.raise .drawLimit := by
  have hreached : drawLimitReached P.maxDraws s.ndraw = true :=
    drawLimitReached_eq_true.2 ⟨l, hP, hl⟩
  rcases drawStep_cases P s with
    ⟨hc', -⟩ | ⟨_, -, -, h⟩ | ⟨_, -, hl', -⟩ | ⟨_, -, hl', -⟩
  · exact absurd hc' hc
  · exact h
  · exact absurd (hreached.symm.trans hl') nofun
  · exact absurd (hreached.symm.trans hl') nofun

/-! ### The values accepted from the first candidates (R142) -/

/-- The values accepted once the first `n` candidates from `c` have been looked at. -/
def accepted (P : Params) (c : CcState) : Nat → List Nat
  | 0 => []
  | n + 1 => accept (accepted P c n) (candidate P (ccAfter P c n))

section
variable (P : Params) (c : CcState)

theorem candidates_succ (n : Nat) :
    candidates P c (n + 1) = candidates P c n ++ [candidate P (ccAfter P c n)] := by
  simp [candidates, List.range_succ]

theorem candidates_subset {m n : Nat} (h : m ≤ n) : candidates P c m ⊆ candidates P c n :=
  List.map_subset _ (List.range_subset.2 h)

theorem nodup_accepted (n : Nat) : (accepted P c n).Nodup := by
  induction n with
  | zero => exact List.nodup_nil
  | succ n ih => exact nodup_accept ih _

theorem mem_accepted {n j : Nat} : j ∈ accepted P c n ↔ j ∈ candidates P c n := by
  induction n with
  | zero => rfl
  | succ n ih => rw [accepted, mem_accept, ih, candidates_succ, List.mem_append, List.mem_singleton]

/-- The accepted values are distinct, so any list they all lie in is at least as long. -/
theorem length_accepted_le_of_subset {n : Nat} {vals : List Nat}
    (h : accepted P c n ⊆ vals) : (accepted P c n).length ≤ vals.length :=
  ((nodup_accepted P c n).subperm h).length_le

theorem length_accepted_le (n : Nat) : (accepted P c n).length ≤ n := by
  calc (accepted P c n).length
      ≤ (candidates P c n).length :=
        length_accepted_le_of_subset P c fun _ => (mem_accepted P c).1
    _ = n := by simp [candidates]

theorem length_accepted_le_dedup {m n : Nat} (h : m ≤ n) :
    (accepted P c m).length ≤ (candidates P c n).dedup.length :=
  length_accepted_le_of_subset P c fun _ hj =>
    List.mem_dedup.2 (candidates_subset P c h ((mem_accepted P c).1 hj))

end

/-! ### The run of a DRAW.MAIN (R141 to R144) -/

/-- The block once a DRAW.MAIN started from `s` with the stream cipher at `c` has made `n` draws and
not ended. -/
def underWay (P : Params) (s : State) (c : CcState) (n : Nat) : State :=
  { s with cc := some (ccAfter P c n), acc := accepted P c n, ndraw := n, busy := true }

theorem drawMainStart_eq_underWay (P : Params) {s : State} {c : CcState} (hc : s.cc = some c) :
    drawMainStart s = underWay P s c 0 := by
  rw [drawMainStart_of_some hc]
  simp only [underWay, ccAfter, accepted, ← hc]

theorem drawn_underWay (P : Params) (s : State) (c : CcState) (n : Nat) :
    drawn P (ccAfter P c n) (underWay P s c n) = underWay P s c (n + 1) := rfl

/-- How a DRAW.MAIN stands after at most `n` draw steps: under way, ended by the limit, or completed
with the `m`-th draw. -/
inductive DrawMainAfter (P : Params) (s : State) (c : CcState) (n : Nat) : State → Prop where
  | underWay (allowed : ∀ l, P.maxDraws = some l → n ≤ l)
      (short : (accepted P c n).length ≤ 4) : DrawMainAfter P s c n (underWay P s c n)
  | limited {t : State} (limit : ∃ l, P.maxDraws = some l) (busy : t.busy = false)
      (fault : t.fault = some .drawLimit) : DrawMainAfter P s c n t
  | completed {t : State} {m : Nat} (made : m ≤ n) (allowed : ∀ l, P.maxDraws = some l → m ≤ l)
      (five : (accepted P c m).length = 5) (busy : t.busy = false) (fault : t.fault = s.fault) :
      DrawMainAfter P s c n t

/-- R142 to R144: what the draw step after draw `n` makes of a DRAW.MAIN under way. -/
theorem drawStep_underWay (P : Params) (s : State) (c : CcState) {n : Nat}
    (hshort : (accepted P c n).length ≤ 4) :
    DrawMainAfter P s c (n + 1) (drawStep P (underWay P s c n)) := by
  rcases drawStep_cases P (underWay P s c n) with
    ⟨hc, -⟩ | ⟨_, -, hl, h⟩ | ⟨c', hc, hl, h5, h⟩ | ⟨c', hc, hl, h5, h⟩
  · cases hc
  · obtain ⟨l, hP, -⟩ := drawLimitReached_eq_true.1 hl
    rw [h]
    exact .limited ⟨l, hP⟩ rfl rfl
  · obtain rfl : ccAfter P c n = c' := Option.some.inj hc
    rw [h, drawComplete_eq]
    exact .completed le_rfl (drawLimitReached_eq_false.1 hl) h5 rfl rfl
  · obtain rfl : ccAfter P c n = c' := Option.some.inj hc
    have hgrow : (accepted P c (n + 1)).length ≤ (accepted P c n).length + 1 :=
      (length_accept_le _ _).2
    have hne : (accepted P c (n + 1)).length ≠ 5 := h5
    rw [h, drawn_underWay]
    exact .underWay (drawLimitReached_eq_false.1 hl) (by omega)

/-- The draw steps of a run, seen from its end. -/
theorem drawRun_succ (P : Params) (n : Nat) (s : State) :
    drawRun P (n + 1) s =
      if (drawRun P n s).busy then drawStep P (drawRun P n s) else drawRun P n s := by
  induction n generalizing s with
  | zero => rfl
  | succ n ih => exact ih _

theorem drawRun_drawMainStart (P : Params) {s : State} {c : CcState} (hc : s.cc = some c)
    (n : Nat) : DrawMainAfter P s c n (drawRun P n (drawMainStart s)) := by
  rw [drawMainStart_eq_underWay P hc]
  induction n with
  | zero => exact .underWay (fun l _ => Nat.zero_le l) (Nat.zero_le 4)
  | succ n ih =>
    rw [drawRun_succ]
    generalize drawRun P n (underWay P s c 0) = t at ih ⊢
    cases ih with
    | underWay _ hshort => exact drawStep_underWay P s c hshort
    | limited hlimit hb hf =>
      rw [if_neg (by simp [hb])]
      exact .limited hlimit hb hf
    | completed hm hallowed h5 hb hf =>
      rw [if_neg (by simp [hb])]
      exact .completed (Nat.le_succ_of_le hm) hallowed h5 hb hf

/-! ### The statements -/

/-- Settles O52: after L + 1 draw steps a DRAW.MAIN is not under way, since it would have made L + 1
draws; and it has not completed where L is below 5, since it accepts at most one value a draw. -/
theorem drawLimitFaults : Obligations.DrawLimitFaults := by
  refine ⟨rfl, fun P s => drawStep_fault_of_unlimited, fun P s l hP hc hl => ?_,
    fun P s l hP hc hf => ?_⟩
  · rw [drawStep_at_limit hP hc hl, State.raise_eq]
  · obtain ⟨c, hc⟩ := Option.ne_none_iff_exists'.1 hc
    have hrun := drawRun_drawMainStart P hc (l + 1)
    generalize drawRun P (l + 1) (drawMainStart s) = t at hrun ⊢
    cases hrun with
    | underWay hallowed => exact absurd (hallowed l hP) (Nat.not_succ_le_self l)
    | limited _ hb hlim => exact ⟨hb, fun _ => hlim⟩
    | @completed _ m _ hallowed h5 hb =>
      refine ⟨hb, fun hl5 => ?_⟩
      have hml : m ≤ l := hallowed l hP
      have h5m : 5 ≤ m := h5 ▸ length_accepted_le P c m
      omega

/-- With no limit, a DRAW.MAIN that is no longer busy has accepted five values. -/
theorem five_accepted_of_ended {P : Params} {s : State} {c : CcState} (hP : P.maxDraws = none)
    (hc : s.cc = some c) {n : Nat} (hb : (drawRun P n (drawMainStart s)).busy = false) :
    ∃ m ≤ n, (accepted P c m).length = 5 := by
  have hrun := drawRun_drawMainStart P hc n
  generalize drawRun P n (drawMainStart s) = t at hrun hb
  cases hrun with
  | underWay => cases hb
  | limited hlimit =>
    obtain ⟨l, hl⟩ := hlimit
    exact absurd (hP.symm.trans hl) nofun
  | completed hm _ h5 => exact ⟨_, hm, h5⟩

/-- Settles O53: a DRAW.MAIN that ends has accepted five values; they are distinct candidates, so no
list of four holds them all and the candidates drawn hold at least as many. -/
theorem hangOnFewIndices : Obligations.HangOnFewIndices := by
  refine fun P s c hP _ hc => ⟨fun ⟨vals, hlen, hvals⟩ n => ?_, fun n hb => ?_⟩
  · by_contra hb
    obtain ⟨m, -, h5⟩ := five_accepted_of_ended hP hc (Bool.eq_false_of_not_eq_true hb)
    have hsub : accepted P c m ⊆ vals := fun j hj => by
      obtain ⟨k, -, rfl⟩ := List.mem_map.1 ((mem_accepted P c).1 hj)
      exact hvals k
    have hle : (accepted P c m).length ≤ vals.length := length_accepted_le_of_subset P c hsub
    omega
  · obtain ⟨m, hm, h5⟩ := five_accepted_of_ended hP hc hb
    exact h5 ▸ length_accepted_le_dedup P c hm

end Sys2Proof.Machine

/-! ## 60_exceptions.md: the halted block -/

namespace Sys2Proof.Machine

/-! ### No step and no final state while FAULT = 1 (R164, R186) -/

theorem step_of_faulted {s : State} (hf : s.fault ≠ none) : step s = .fault .halted := by
  obtain ⟨-, hs⟩ | ⟨h, -⟩ | ⟨h, -⟩ := step_cases s
  · exact hs
  · exact absurd h hf
  · exact absurd h hf

theorem runEnd_of_faulted {s : State} (hf : s.fault ≠ none) : runEnd s = some .faulted :=
  if_pos (Option.isSome_iff_ne_none.2 hf)

/-! ### What a host action short of reset can change (R173) -/

/-- The stream and the answers to come are the host's own inputs: no element of the block (R36). -/
theorem hostAct_writes_inputs_only {a : HostAction} (ha : a ≠ .reset) (s : State) :
    ∃ words weaks times, hostAct a s =
      { s with stream := words, weakAnswers := weaks, timeAnswers := times } := by
  cases a with
  | present | answerWeak | answerTime => exact ⟨_, _, _, rfl⟩
  | reset => exact absurd rfl ha

/-! ### The statement -/

/-- Settles O10: FAULT alone decides that there is no step and how the run has ended, no host action
short of reset writes it or a result register, and taking a fault writes STATUS only. -/
theorem haltedBlockHasNoStep : Obligations.HaltedBlockHasNoStep := by
  refine ⟨fun s hf => ⟨step_of_faulted hf, ?_⟩, fun s a hf ha => ?_, fun s c => ⟨fun k => ?_, ?_⟩⟩
  · rw [runEnd_of_faulted hf]
    decide
  · obtain ⟨words, weaks, times, hact⟩ := hostAct_writes_inputs_only ha s
    rw [hact]
    exact ⟨rfl, fun _ => rfl, rfl, step_of_faulted hf⟩
  · exact congrArg (·[k]) (State.raise_res s c)
  · exact State.raise_resf s c

end Sys2Proof.Machine

/-! ## 70_reset_and_hazards.md: reset -/

namespace Sys2Proof.Machine

/-! ### What the host reads of a block just reset (R36) -/

@[simp] theorem readRes_assertReset (s : State) (k : Fin 5) : readRes s.assertReset k = 0 :=
  Vector.getElem_replicate k.isLt

/-- The fields kept through reset are the host's own, and STATUS reports none of them. -/
@[simp] theorem statusWord_assertReset (s : State) : statusWord s.assertReset = 0 :=
  have atReset : statusWord State.reset = 0 := by decide
  atReset

/-! ### The statement -/

/-- Settles O14: `State.assertReset` takes each element from `State.reset` and each query count from
the state before; the registers the host reads are the two lemmas above. -/
theorem resetSetsEveryElement : Obligations.ResetSetsEveryElement := fun s =>
  ⟨rfl, rfl, rfl, rfl, rfl, rfl, rfl, readRes_assertReset s, rfl, rfl, statusWord_assertReset s,
    rfl, rfl⟩

end Sys2Proof.Machine

/-! ## 30_encoding.md: encoding against decoding, the assembler and the disassembler -/

namespace Sys2Proof

/-! ### Decoding against encoding (R67) -/

/-- R63: the first word of a command names its opcode. -/
theorem encode_head? (i : Instr) : (encode i).head? = some i.opcode.word := by
  cases i <;> rfl

theorem Opcode.word_injective : Function.Injective Opcode.word := by
  intro a b h
  have hcode : a.code = b.code := by rw [← opcField_word, h, opcField_word]
  exact Option.some.inj ((opcodeOf_eq_some.2 rfl).symm.trans (opcodeOf_eq_some.2 hcode))

theorem decode_encode (i : Instr) (rest : List Word) :
    decode (encode i ++ rest) = .instr i rest := by
  cases i <;> exact decode_word _ _

/-- An opcode gives a command from nothing but that command's own words. -/
theorem Opcode.words_of_assemble {op : Opcode} {ws rest : List Word} {i : Instr}
    (h : op.assemble ws = .instr i rest) : op.word :: ws = encode i ++ rest := by
  rcases op.assemble_cases ws with
    ⟨-, -, ha⟩ | ⟨seed, r, rfl, rfl, ha⟩ | ⟨-, j, -, hj, ha⟩ <;> rw [ha] at h <;> cases h
  · rfl
  · rw [hj]
    rfl

theorem decode_eq_instr_iff {ws rest : List Word} {i : Instr} :
    decode ws = .instr i rest ↔ ws = encode i ++ rest := by
  refine ⟨fun h => ?_, fun h => h ▸ decode_encode i rest⟩
  cases ws with
  | nil => cases h
  | cons w ws =>
    obtain ⟨op, rfl, hop⟩ := word_of_decode_instr h
    exact Opcode.words_of_assemble hop

end Sys2Proof

namespace Sys2Proof.Machine

/-- Decoding takes one command at a time off a sequence's words. -/
theorem decode_encodeAll_cons (i : Instr) (is : List Instr) :
    decode (encodeAll (i :: is)) = .instr i (encodeAll is) := decode_encode i _

theorem encodeAll_injective : Function.Injective encodeAll := by
  intro is js h
  induction is generalizing js with
  | nil =>
    cases js with
    | nil => rfl
    | cons j js =>
      have hd := decode_encodeAll_cons j js
      rw [← h] at hd
      cases hd
  | cons i is ih =>
    have hd := decode_encodeAll_cons i is
    rw [h] at hd
    cases js with
    | nil => cases hd
    | cons j js =>
      rw [decode_encodeAll_cons, Decoded.instr.injEq] at hd
      obtain ⟨rfl, hrest⟩ := hd
      rw [ih hrest.symm]

/-- Settles O1: a command's words decode to it and to nothing else, so decoding reads the commands
of a sequence off its words one by one. -/
theorem decodeAndEncodeAgree : Obligations.DecodeAndEncodeAgree := by
  refine ⟨fun _ _ _ => decode_eq_instr_iff, fun i j h => ?_, fun _ _ => (encodeAll_injective ·)⟩
  rw [encode_head?, encode_head?] at h
  exact Opcode.word_injective (Option.some.inj h)

end Sys2Proof.Machine

namespace Sys2Proof.Machine

/-! ### The tokens of a line the disassembler prints (R69) -/

/-- A character that ends no token and begins no comment. -/
def isTokenChar (c : Char) : Bool := !isBlank c && c != ';'

/-- Characters that are not blank are added to the token under way. -/
theorem tokensFrom_append {t : List Char} (ht : ∀ c ∈ t, isTokenChar c = true)
    (cur rest : List Char) : tokensFrom cur (t ++ rest) = tokensFrom (cur ++ t) rest := by
  induction t generalizing cur with
  | nil => simp
  | cons c t ih =>
    have hc : isBlank c = false := by
      have := ht c List.mem_cons_self
      simp_all [isTokenChar]
    rw [List.cons_append, tokensFrom, if_neg (by simp [hc]),
      ih fun d hd => ht d (List.mem_cons_of_mem c hd), List.append_assoc, List.singleton_append]

theorem withoutComment_of_tokenChars {t a : List Char} (ht : ∀ c ∈ t, isTokenChar c = true)
    (ha : ∀ c ∈ a, isTokenChar c = true) : withoutComment (t ++ ' ' :: a) = t ++ ' ' :: a := by
  refine List.takeWhile_eq_self_iff.2 fun c hc => ?_
  rcases List.mem_append.1 hc with h | h
  · have := ht c h
    simp_all [isTokenChar]
  · rcases List.mem_cons.1 h with rfl | h
    · decide
    · have := ha c h
      simp_all [isTokenChar]

/-- R68: a mnemonic and its operand, with one space between them, are two tokens. -/
theorem tokens_pair {t a : List Char} (ht : ∀ c ∈ t, isTokenChar c = true)
    (ha : ∀ c ∈ a, isTokenChar c = true) (ht0 : t ≠ []) (ha0 : a ≠ []) :
    tokens (t ++ ' ' :: a) = [t, a] := by
  have hsecond : tokensFrom [] a = [a] := by
    simpa [tokensFrom, ha0] using tokensFrom_append ha [] []
  rw [tokens, withoutComment_of_tokenChars ht ha, tokensFrom_append ht, List.nil_append, tokensFrom,
    if_pos (by decide), if_neg (by simpa using ht0), hsecond]

/-! ### A word printed in hexadecimal reads as itself (R69) -/

/-- The eight hexadecimal digits of a word, the most significant first. -/
def hexDigits (w : Word) : List Nat :=
  [w.toNat / 16 ^ 7 % 16, w.toNat / 16 ^ 6 % 16, w.toNat / 16 ^ 5 % 16, w.toNat / 16 ^ 4 % 16,
    w.toNat / 16 ^ 3 % 16, w.toNat / 16 ^ 2 % 16, w.toNat / 16 % 16, w.toNat % 16]

theorem hexWord_eq (w : Word) : hexWord w = '0' :: 'x' :: (hexDigits w).map hexDigit := rfl

theorem hexDigits_lt {w : Word} {d : Nat} (h : d ∈ hexDigits w) : d < 16 := by
  simp only [hexDigits, List.mem_cons, List.not_mem_nil, or_false] at h
  omega

theorem digitValue_hexDigit {d : Nat} (h : d < 16) : digitValue (hexDigit d) = some d := by
  revert h
  revert d
  decide

theorem isTokenChar_hexDigit {d : Nat} (h : d < 16) : isTokenChar (hexDigit d) = true := by
  revert h
  revert d
  decide

theorem digitsValue_hexDigits {ds : List Nat} (h : ∀ d ∈ ds, d < 16) (n : Nat) :
    digitsValue 16 (ds.map hexDigit) n = some (ds.foldl (fun m d => m * 16 + d) n) := by
  induction ds generalizing n with
  | nil => rfl
  | cons d ds ih =>
    have hd : d < 16 := h d List.mem_cons_self
    rw [List.map_cons, digitsValue, digitValue_hexDigit hd]
    exact (if_pos hd).trans (ih (fun e he => h e (List.mem_cons_of_mem d he)) _)

theorem foldl_hexDigits (w : Word) : (hexDigits w).foldl (fun m d => m * 16 + d) 0 = w.toNat := by
  have := w.isLt
  simp only [hexDigits, List.foldl_cons, List.foldl_nil]
  omega

theorem readNumber_hexWord (w : Word) : readNumber (hexWord w) = some w.toNat := by
  rw [← foldl_hexDigits, ← digitsValue_hexDigits fun _ => hexDigits_lt]
  rfl

theorem hexWord_tokenChars (w : Word) : ∀ c ∈ hexWord w, isTokenChar c = true := by
  intro c hc
  rw [hexWord_eq, List.mem_cons, List.mem_cons, List.mem_map] at hc
  rcases hc with rfl | rfl | ⟨d, hd, rfl⟩
  · decide
  · decide
  · exact isTokenChar_hexDigit (hexDigits_lt hd)

/-- A line of a token and a word in hexadecimal reads as that token with the word's value. -/
theorem readLine_hexWord {t : List Char} (ht : ∀ c ∈ t, isTokenChar c = true) (ht0 : t ≠ [])
    (w : Word) : readLine (t ++ ' ' :: hexWord w) = lineWithNumber t w.toNat := by
  have htokens := tokens_pair ht (hexWord_tokenChars w) ht0 (by simp [hexWord_eq])
  simp only [readLine, htokens, readNumber_hexWord]

/-! ### The lines of the disassembler assemble to what they stand for -/

theorem fitsWord_toNat (w : Word) : fitsWord w.toNat = true := decide_eq_true w.isLt

theorem assembleLine_of_readLine {line : List Char} {l : AsmLine} (h : readLine line = some l)
    (hwf : l.wf = true) : assembleLine line = some (lineWords l) := by
  simp only [assembleLine, h, hwf, if_true]

theorem assembleLine_wordLine (w : Word) : assembleLine (wordLine w) = some [w] := by
  have hread : readLine (wordLine w) = some (.word w.toNat) :=
    (readLine_hexWord (t := wordDirective) (List.all_eq_true.1 rfl) (by decide) w).trans
      (if_pos rfl)
  rw [assembleLine_of_readLine hread (fitsWord_toNat w), lineWords, BitVec.ofNat_toNat,
    BitVec.setWidth_eq]

theorem assembleLine_mtSeed (seed : Word) :
    assembleLine (instrLine (.mtSeed seed)) = some (encode (.mtSeed seed)) := by
  have hread : readLine (instrLine (.mtSeed seed)) = some (.command .mtSeed (some seed.toNat)) :=
    (readLine_hexWord (t := opcodeName .mtSeed) (List.all_eq_true.1 rfl) (by decide) seed).trans (by
      have hname : opcodeNamed (opcodeName .mtSeed) = some .mtSeed := by decide
      rw [lineWithNumber, if_neg (by decide), hname])
  rw [assembleLine_of_readLine hread (fitsWord_toNat seed), lineWords, Option.getD_some,
    BitVec.ofNat_toNat, BitVec.setWidth_eq]

/-- R68, R69: the line of a command assembles to the command's words. -/
theorem assembleLine_instrLine (i : Instr) : assembleLine (instrLine i) = some (encode i) := by
  cases i with
  | mtSeed seed => exact assembleLine_mtSeed seed
  | init | mtU32 | mtF64 | ccU32 | ccF64 | hybrid | drawMain | drawPb => decide

theorem assemble_cons {line : List Char} {lines : List (List Char)} {ws rest : List Word}
    (h : assembleLine line = some ws) (hs : assemble lines = some rest) :
    assemble (line :: lines) = some (ws ++ rest) := by
  simp only [assemble, h, hs]

/-! ### Disassembly, word by word -/

theorem disassembleFrom_reserved {w : Word} (hw : ReservedWord w) (ws : List Word) :
    disassembleFrom none (w :: ws) = wordLine w :: disassembleFrom none ws := by
  simp only [disassembleFrom, decode_reserved hw]

theorem disassembleFrom_mtSeed (ws : List Word) :
    disassembleFrom none (Opcode.word .mtSeed :: ws) =
      disassembleFrom (some (Opcode.word .mtSeed)) ws := rfl

theorem disassembleFrom_of_decode {w : Word} {i : Instr} (h : decode [w] = .instr i [])
    (ws : List Word) :
    disassembleFrom none (w :: ws) = instrLine i :: disassembleFrom none ws := by
  simp only [disassembleFrom, h]

/-- One command word is reserved, awaits MT.SEED's operand, or is a command of one word. -/
theorem decode_singleton_cases (w : Word) :
    ReservedWord w ∨ w = Opcode.word .mtSeed ∨ ∃ i, encode i = [w] := by
  rcases reserved_or_opcode w with hw | ⟨op, rfl⟩
  · exact .inl hw
  · rcases op.assemble_cases [] with ⟨rfl, -, -⟩ | ⟨_, _, -, h, -⟩ | ⟨-, i, -, hi, -⟩
    · exact .inr (.inl rfl)
    · cases h
    · exact .inr (.inr ⟨i, hi⟩)

/-- Disassembly reads back, also with an MT.SEED word that still awaits its operand. -/
theorem assemble_disassembleFrom (ws : List Word) :
    assemble (disassembleFrom none ws) = some ws ∧
      assemble (disassembleFrom (some (Opcode.word .mtSeed)) ws) =
        some (Opcode.word .mtSeed :: ws) := by
  induction ws with
  | nil => exact ⟨rfl, assemble_cons (assembleLine_wordLine _) rfl⟩
  | cons w ws ih =>
    obtain ⟨ihNone, ihSeed⟩ := ih
    refine ⟨?_, assemble_cons (assembleLine_instrLine (.mtSeed w)) ihNone⟩
    rcases decode_singleton_cases w with hw | rfl | ⟨i, hi⟩
    · rw [disassembleFrom_reserved hw]
      exact assemble_cons (assembleLine_wordLine w) ihNone
    · rw [disassembleFrom_mtSeed]
      exact ihSeed
    · have hdecode : decode ([w] ++ []) = .instr i [] := hi ▸ decode_encode i []
      rw [disassembleFrom_of_decode hdecode]
      exact assemble_cons (hi ▸ assembleLine_instrLine i) ihNone

/-- Settles O6, by induction on the words: each line the disassembler prints assembles to the words
it stands for. -/
theorem disassemblyAssemblesBack : Obligations.DisassemblyAssemblesBack := fun ws =>
  (assemble_disassembleFrom ws).1

end Sys2Proof.Machine

namespace Sys2Proof.Machine

/-! ### The examples (R70) -/

/-- Settles O5: the assembler's rows run, and each word sequence is its command's encoding. -/
theorem encodingExamples : Obligations.EncodingExamples :=
  ⟨assembleLine_instrLine .init, by decide, by decide, assembleLine_instrLine .mtU32,
    assembleLine_instrLine .mtF64, assembleLine_instrLine .ccU32, assembleLine_instrLine .ccF64,
    assembleLine_instrLine .hybrid, assembleLine_instrLine .drawMain,
    assembleLine_instrLine .drawPb, assembleLine_wordLine 0x00000103, decode_encode .init [],
    decode_encode (.mtSeed 5489) [], decode_encode (.mtSeed 0xFFFFFFFF) [],
    decode_encode .mtU32 [], decode_encode .mtF64 [], decode_encode .ccU32 [],
    decode_encode .ccF64 [], decode_encode .hybrid [], decode_encode .drawMain [],
    decode_encode .drawPb [], decode_reserved (.inl (by decide)) []⟩

/-! ### The assembler's check of operands (R68) -/

theorem fitsWord_iff {n : Nat} : fitsWord n = true ↔ n ≤ 4294967295 := by
  rw [fitsWord, decide_eq_true_iff]
  omega

theorem assembleLine_of_unread {line : List Char} (h : readLine line = none) :
    assembleLine line = none := by
  simp only [assembleLine, h]

theorem assembleLine_of_illFormed {line : List Char} {l : AsmLine} (h : readLine line = some l)
    (hwf : l.wf = false) : assembleLine line = none := by
  simp [assembleLine, h, hwf]

/-- R68: a sign is no digit. -/
theorem readNumber_minus (a : List Char) : readNumber ('-' :: a) = none := rfl

theorem readLine_of_no_number {line t a : List Char} (h : tokens line = [t, a])
    (ha : readNumber a = none) : readLine line = none := by
  simp only [readLine, h, ha]

theorem opcodeNamed_wordDirective : opcodeNamed wordDirective = none := by decide

theorem readLine_of_opcode {line t a : List Char} {op : Opcode} {n : Nat}
    (h : tokens line = [t, a]) (ht : opcodeNamed t = some op) (ha : readNumber a = some n) :
    readLine line = some (.command op (some n)) := by
  have hdir : t ≠ wordDirective := by
    rintro rfl
    rw [opcodeNamed_wordDirective] at ht
    cases ht
  simp only [readLine, h, ha, lineWithNumber, if_neg hdir, ht]

theorem lineWords_mtSeed (n : Nat) :
    lineWords (.command .mtSeed (some n)) = [0x00000002, BitVec.ofNat 32 n] := rfl

/-- Settles O7: whether a term is well formed is a matter of its constructors and of `fitsWord`, and
a line is accepted as the term it reads as. -/
theorem assemblerChecksOperands : Obligations.AssemblerChecksOperands := by
  refine ⟨fun n => fitsWord_iff, rfl, fun op n hop => ?_, fun op hop => ?_,
    fun line l => assembleLine_of_illFormed, fun line l => assembleLine_of_readLine,
    fun line => assembleLine_of_unread, fun line t a h => ?_, fun line t a n h ht ha => ?_,
    fun n _ => lineWords_mtSeed n⟩
  · cases op with
    | mtSeed => exact absurd rfl hop
    | init | mtU32 | mtF64 | ccU32 | ccF64 | hybrid | drawMain | drawPb => rfl
  · cases op with
    | mtSeed => exact absurd rfl hop
    | init | mtU32 | mtF64 | ccU32 | ccF64 | hybrid | drawMain | drawPb => rfl
  · exact assembleLine_of_unread (readLine_of_no_number h (readNumber_minus a))
  · have hread := readLine_of_opcode h ht ha
    split
    · next hn => exact assembleLine_of_readLine hread (fitsWord_iff.2 hn)
    · next hn =>
      exact assembleLine_of_illFormed hread (Bool.eq_false_of_not_eq_true (mt fitsWord_iff.1 hn))

/-! ### Pseudo-instructions (R76) -/

theorem encodeAll_append (is js : List Instr) :
    encodeAll (is ++ js) = encodeAll is ++ encodeAll js := by
  induction is with
  | nil => rfl
  | cons i is ih => simp [encodeAll, ih]

theorem lineWords_pseudo (p : Pseudo) (n : Nat) :
    lineWords (.pseudo p n) = (List.replicate n (encodeAll (pseudoRound p))).flatten := by
  change encodeAll (pseudoExpand p n) = _
  induction n with
  | zero => rfl
  | succ n ih =>
    rw [pseudoExpand, encodeAll_append, ih, List.replicate_succ, List.flatten_cons]

/-- A pseudo-instruction whose round is one word. -/
theorem lineWords_pseudo_of_word {p : Pseudo} {w : Word} (h : encodeAll (pseudoRound p) = [w])
    (n : Nat) : lineWords (.pseudo p n) = List.replicate n w := by
  rw [lineWords_pseudo, h, List.flatten_replicate_singleton]

/-- Settles O8: n rounds give the words of one round n times. -/
theorem pseudoInstructionsExpand : Obligations.PseudoInstructionsExpand := fun n =>
  ⟨lineWords_pseudo_of_word rfl n, lineWords_pseudo_of_word rfl n, lineWords_pseudo_of_word rfl n,
    lineWords_pseudo .benchLottery n, lineWords_pseudo_of_word rfl n⟩

/-- Settles O9: it is `step_of_instr`, `fetch` being decoding at cpos. -/
theorem stepRunsDecodedCommand : Obligations.StepRunsDecodedCommand :=
  fun _ _ _ hf hb h => step_of_instr hf hb h

end Sys2Proof.Machine

/-! ## 00_scope.md: binary64 encodings and rounding -/

namespace Sys2Proof

/-! ### The fields of an encoding (R11) -/

/-- R11: an encoding is its sign, exponent and fraction fields. -/
theorem toNat_eq_fields (b : Bits64) :
    b.toNat = (b.getLsbD 63).toNat * 2 ^ 63 + (b.extractLsb' 52 11).toNat * 2 ^ 52 +
      (b.extractLsb' 0 52).toNat := by
  have hb := b.isLt
  have hsign : (b.getLsbD 63).toNat = b.toNat / 2 ^ 63 := by
    rw [← BitVec.testBit_toNat, Nat.toNat_testBit]
    omega
  rw [hsign, BitVec.extractLsb'_toNat, BitVec.extractLsb'_toNat, Nat.shiftRight_eq_div_pow,
    Nat.shiftRight_eq_div_pow]
  omega

/-- R11: the datum of an encoding with sign `neg`, exponent field `e` and fraction `f`. -/
inductive Decodes (b : Bits64) (neg : Bool) (e f : Nat) : Prop where
  | inf (he : e = 2047) (hf : f = 0) (datum : F64.ofBits b = .inf neg)
  | nan (he : e = 2047) (hf : f ≠ 0) (datum : F64.ofBits b = .nan)
  | subnormal (he : e = 0) (datum : F64.ofBits b = .fin neg f)
  | normal (he : 0 < e) (he' : e < 2047)
      (datum : F64.ofBits b = .fin neg ((2 ^ 52 + f) * 2 ^ (e - 1)))

theorem ofBits_decodes (b : Bits64) :
    ∃ neg e f, f < 2 ^ 52 ∧ b.toNat = neg.toNat * 2 ^ 63 + e * 2 ^ 52 + f ∧ Decodes b neg e f := by
  refine ⟨_, _, _, (b.extractLsb' 0 52).isLt, toNat_eq_fields b, ?_⟩
  have he : (b.extractLsb' 52 11).toNat < 2 ^ 11 := (b.extractLsb' 52 11).isLt
  by_cases h1 : (b.extractLsb' 52 11).toNat = 2047
  · by_cases h2 : (b.extractLsb' 0 52).toNat = 0
    · exact .inf h1 h2 ((if_pos h1).trans (if_pos h2))
    · exact .nan h1 h2 ((if_pos h1).trans (if_neg h2))
  · by_cases h3 : (b.extractLsb' 52 11).toNat = 0
    · exact .subnormal h3 ((if_neg h1).trans (if_pos h3))
    · exact .normal (by omega) (by omega) ((if_neg h1).trans (if_neg h3))

/-! ### Encoding a finite magnitude -/

theorem magnitudeBits_of_subnormal {f : Nat} (hf : f < 2 ^ 52) : magnitudeBits f = f := by
  have hlog : spacingExp f = 0 := by
    rcases spacingExp_spec f with h | h
    · exact h
    · have : 2 ^ 52 ≤ 2 ^ (spacingExp f + 52) := Nat.pow_le_pow_right (by decide) (by omega)
      omega
  rw [magnitudeBits, hlog]
  simp

/-- The spacing of a magnitude given as 53 significant bits and an exponent. -/
theorem spacingExp_significand {m : Nat} (hlo : 2 ^ 52 ≤ m) (hhi : m < 2 ^ 53) (k : Nat) :
    spacingExp (m * 2 ^ k) = k := by
  have hlog : (m * 2 ^ k).log2 = 52 + k := by
    rw [Nat.log2_eq_iff (by positivity), pow_add, show 52 + k + 1 = 53 + k by omega, pow_add]
    exact ⟨Nat.mul_le_mul_right _ hlo, Nat.mul_lt_mul_of_pos_right hhi (by positivity)⟩
  rw [spacingExp, hlog, Nat.add_sub_cancel_left]

theorem magnitudeBits_significand {m : Nat} (hlo : 2 ^ 52 ≤ m) (hhi : m < 2 ^ 53) (k : Nat) :
    magnitudeBits (m * 2 ^ k) = k * 2 ^ 52 + m := by
  rw [magnitudeBits, spacingExp_significand hlo hhi, Nat.mul_div_cancel _ (by positivity)]

theorem bits64_fin_toNat (neg : Bool) {u : Nat} (h : magnitudeBits u < 2 ^ 63) :
    (F64.fin neg u).bits64.toNat = neg.toNat * 2 ^ 63 + magnitudeBits u := by
  change (BitVec.ofBool neg ++ BitVec.ofNat 63 (magnitudeBits u)).toNat = _
  rw [BitVec.toNat_append, BitVec.toNat_ofNat, Nat.mod_eq_of_lt h,
    ← Nat.shiftLeft_add_eq_or_of_lt h, Nat.shiftLeft_eq, BitVec.toNat_ofBool]

theorem bits64_inf_toNat (neg : Bool) :
    (F64.inf neg).bits64.toNat = neg.toNat * 2 ^ 63 + 2047 * 2 ^ 52 := by
  cases neg <;> rfl

/-- Settles O57: by the fields of the encoding, whose exponent the significand's leading bit is
carried into. -/
theorem encodingRoundTrip : Obligations.EncodingRoundTrip := by
  intro b hnan
  obtain ⟨neg, e, f, hf, hb, hdec⟩ := ofBits_decodes b
  apply BitVec.eq_of_toNat_eq
  cases hdec with
  | inf he hf0 datum => rw [datum, bits64_inf_toNat, hb, he, hf0, Nat.add_zero]
  | nan _ _ datum => exact absurd datum hnan
  | subnormal he datum =>
    have hm := magnitudeBits_of_subnormal hf
    rw [datum, bits64_fin_toNat neg (by omega), hm, hb, he, Nat.zero_mul, Nat.add_zero]
  | normal he he' datum =>
    have hm : magnitudeBits ((2 ^ 52 + f) * 2 ^ (e - 1)) = (e - 1) * 2 ^ 52 + (2 ^ 52 + f) :=
      magnitudeBits_significand (by omega) (by omega) _
    rw [datum, bits64_fin_toNat neg (by omega), hm]
    omega

/-! ### The range check of R84 by encoding -/

/-- A magnitude of 53 significant bits is below a power of two exactly when its exponent is. -/
theorem significand_lt_iff {m : Nat} (hlo : 2 ^ 52 ≤ m) (hhi : m < 2 ^ 53) {k n : Nat} :
    m * 2 ^ k < 2 ^ (n + 53) ↔ k ≤ n := by
  rw [pow_add, Nat.mul_comm (2 ^ n)]
  constructor
  · intro h
    by_contra hk
    have hpow : 2 ^ (n + 1) ≤ 2 ^ k := Nat.pow_le_pow_right (by decide) (by omega)
    have hmul := Nat.mul_le_mul hlo hpow
    rw [pow_succ] at hmul
    omega
  · intro hk
    have hpow : 2 ^ k ≤ 2 ^ n := Nat.pow_le_pow_right (by decide) hk
    exact (Nat.mul_le_mul_left m hpow).trans_lt (Nat.mul_lt_mul_of_pos_right hhi (by positivity))

theorem inUnit_fin_iff {neg : Bool} {u : Nat} :
    (F64.fin neg u).inUnit = true ↔ u < unitsOfOne ∧ (neg = true → u = 0) := by
  have hpos := unitsOfOne_pos
  cases neg with
  | false =>
    simp only [F64.inUnit, F64.rank, Bool.and_eq_true, decide_eq_true_eq, reduceCtorEq,
      false_imp_iff, and_true]
    omega
  | true =>
    simp only [F64.inUnit, F64.rank, Bool.and_eq_true, decide_eq_true_eq, forall_const]
    omega

theorem inUnit_inf (neg : Bool) : (F64.inf neg).inUnit = false := by
  refine Bool.eq_false_of_not_eq_true fun h => ?_
  obtain ⟨_, _, h, -⟩ := inUnit_cases h
  cases h

/-- R8 (a), R84: the encodings in [0.0, 1.0) are those with sign 0 below that of 1.0, and -0.0. -/
theorem inUnit_ofBits_iff (b : Bits64) :
    (F64.ofBits b).inUnit = true ↔
      b.toNat < 0x3FF0000000000000 ∨ b = 0x8000000000000000#64 := by
  obtain ⟨neg, e, f, hf, hb, hdec⟩ := ofBits_decodes b
  rw [← BitVec.toNat_inj, BitVec.toNat_ofNat, hb]
  cases hdec with
  | inf he hf0 datum =>
    rw [datum, inUnit_inf]
    have hneg := neg.toNat_le
    exact iff_of_false nofun (by omega)
  | nan he hf0 datum =>
    rw [datum]
    have hneg := neg.toNat_le
    exact iff_of_false nofun (by omega)
  | subnormal he datum =>
    have hlt : f < unitsOfOne := by
      rw [unitsOfOne_eq, pow_add]
      exact hf.trans_le ((Nat.le_mul_of_pos_left _ (by positivity)).trans' (by decide))
    rw [datum, inUnit_fin_iff]
    cases neg <;> simp <;> omega
  | normal he he' datum =>
    have hlt : (2 ^ 52 + f) * 2 ^ (e - 1) < unitsOfOne ↔ e ≤ 1022 := by
      rw [unitsOfOne_eq, significand_lt_iff (by omega) (by omega)]
      omega
    rw [datum, inUnit_fin_iff, hlt]
    cases neg <;> simp <;> omega

theorem UnitF64.bits_toNat (x : UnitF64) :
    x.bits.toNat = if x.code.val < 0x3FF0000000000000 then x.code.val else 0x8000000000000000 := by
  unfold UnitF64.bits
  split
  · rw [BitVec.toNat_ofNat]
    omega
  · rfl

/-- The type of `nextF64`'s values holds exactly the encodings in [0.0, 1.0). -/
theorem inUnit_iff_exists_unitF64 (b : Bits64) :
    (F64.ofBits b).inUnit = true ↔ ∃ x : UnitF64, x.bits = b := by
  rw [inUnit_ofBits_iff]
  constructor
  · rintro (h | rfl)
    · refine ⟨⟨⟨b.toNat, by omega⟩⟩, BitVec.eq_of_toNat_eq ?_⟩
      rw [UnitF64.bits_toNat, if_pos h]
    · exact ⟨⟨⟨0x3FF0000000000000, by decide⟩⟩, rfl⟩
  · rintro ⟨x, rfl⟩
    unfold UnitF64.bits
    split
    · next h =>
      refine .inl ?_
      rw [BitVec.toNat_ofNat]
      omega
    · exact .inr rfl

theorem UnitF64.inUnit_bits (x : UnitF64) : (F64.ofBits x.bits).inUnit = true :=
  (inUnit_iff_exists_unitF64 _).2 ⟨x, rfl⟩

end Sys2Proof

/-! ## 41_mt19937.md to 44_constrained_sampler.md: the ranges of what the commands write -/

namespace Sys2Proof.Machine

/-! ### A reading in [0.0, 1.0) times a whole number -/

/-- R80, R140: the product of the largest reading below 1.0 and a whole number, truncated. -/
def topProduct (k : Nat) : Nat :=
  roundUnits (unitsBelowOne * (k * unitsOfOne)) unitsOfOne / unitsOfOne

/-- R80, R140: the product of a reading and a whole number has one integer part, below which it does
not fall and above which it does not reach the product of the largest reading. -/
theorem fmul_unit_integer {b : Bits64} (hb : (F64.ofBits b).inUnit = true) {k : Nat}
    (hk : k < 2 ^ 53) :
    ∃ q : Nat, q ≤ topProduct k ∧ (fmul (F64.ofBits b) (F64.ofNat k)).floor = q ∧
      (fmul (F64.ofBits b) (F64.ofNat k)).trunc = q := by
  obtain ⟨neg, u, -, hneg, hu, -, hmul⟩ := fmul_unit hb hk
  rw [hmul]
  cases neg with
  | false =>
    exact ⟨_, Nat.div_le_div_right (roundUnits_mono unitsOfOne_pos (Nat.mul_le_mul_right _ hu)),
      floor_fin_false _, trunc_fin_false _⟩
  | true =>
    rw [hneg rfl, Nat.zero_mul, roundUnits_zero unitsOfOne_pos]
    exact ⟨0, Nat.zero_le _, floor_neg_zero, trunc_neg_zero⟩

/-- Settles O27: the truncated product is at most that of 1 - 2^-53, which is 4294967294. -/
theorem scaledSampleRange : Obligations.ScaledSampleRange := by
  intro b hb
  have htop : topProduct 4294967295 = 4294967294 := by decide +kernel
  obtain ⟨q, hq, -, htrunc⟩ := fmul_unit_integer hb (k := 4294967295) (by norm_num)
  have hscale : (scale32 (F64.ofBits b)).toNat = q := by
    change (BitVec.ofInt 32 (fmul (F64.ofBits b) (F64.ofNat 4294967295)).trunc).toNat = q
    rw [htrunc, BitVec.ofInt_natCast, BitVec.toNat_ofNat]
    omega
  rw [hscale, htrunc]
  exact ⟨rfl, hq.trans_eq htop⟩

theorem mainIndex_unit {b : Bits64} (hb : (F64.ofBits b).inUnit = true) :
    (mainIndex (F64.ofBits b) : Int) = (fmul (F64.ofBits b) (F64.ofNat 69)).floor + 1 ∧
      1 ≤ mainIndex (F64.ofBits b) ∧ mainIndex (F64.ofBits b) ≤ 69 := by
  have htop : topProduct 69 = 68 := by decide +kernel
  obtain ⟨q, hq, hfloor, -⟩ := fmul_unit_integer hb (k := 69) (by norm_num)
  have hindex : mainIndex (F64.ofBits b) = q + 1 := by
    change ((fmul (F64.ofBits b) (F64.ofNat 69)).floor + 1).toNat = q + 1
    rw [hfloor]
    omega
  rw [hindex, hfloor]
  omega

/-- Settles O45: the range by `mainIndex_unit`; the four quotients are evaluated. -/
theorem mainIndexRange : Obligations.MainIndexRange :=
  ⟨fun _ => mainIndex_unit, by decide +kernel⟩

/-- R140: every candidate lies in 1..69, whatever CC is. -/
theorem candidate_range (P : Params) (c : CcState) : 1 ≤ candidate P c ∧ candidate P c ≤ 69 :=
  (mainIndex_unit (UnitF64.inUnit_bits _)).2

/-! ### Normalized words (R101) -/

/-- R101: the magnitude of a normalized word, in units. -/
def u01Units (n : Word) : Nat :=
  roundUnits (n.toNat * unitsOfOne * unitsOfOne) (u32Max * unitsOfOne)

theorem u01_eq (n : Word) : u01 n = .fin false (u01Units n) := (u01_spec n).2

theorem u01Units_le_one (n : Word) : u01Units n ≤ unitsOfOne := (u01_spec n).1

theorem u01Units_mono {a b : Word} (h : a.toNat ≤ b.toNat) : u01Units a ≤ u01Units b := u01_mono h

theorem u01Units_zero : u01Units 0 = 0 := by
  change roundUnits (0 * unitsOfOne * unitsOfOne) _ = 0
  rw [Nat.zero_mul, Nat.zero_mul, roundUnits_zero u32Max_units_pos]

theorem u01Units_max : u01Units 0xFFFFFFFF = unitsOfOne := by
  refine roundUnits_exact u32Max_units_pos ?_ ?_
  · simpa using ofNat_representable (n := 1) (by norm_num)
  · rw [Nat.mul_comm unitsOfOne]
    rfl

/-- The words other than 0 and 0xFFFFFFFF lie between 1 and 0xFFFFFFFE. -/
theorem one_le_toNat {n : Word} (h : n ≠ 0) : (1 : Word).toNat ≤ n.toNat := by
  bv_omega

theorem toNat_le_pred_max {n : Word} (h : n ≠ 0xFFFFFFFF) :
    n.toNat ≤ (0xFFFFFFFE : Word).toNat := by
  bv_omega

/-- Settles O34: rounding keeps the order of words, so the ends are the values at 1 and 0xFFFFFFFE,
which are evaluated. -/
theorem normalizationRange : Obligations.NormalizationRange := by
  refine ⟨by rw [u01_eq, u01Units_zero], ?_, fun n => ⟨rfl, fun h0 hmax => ?_⟩⟩
  · rw [u01_eq, u01Units_max, F64.ofNat, Nat.one_mul]
  · have hlow : 2 ^ 52 ≤ u01Units 1 := by decide +kernel
    have hhigh : u01Units 0xFFFFFFFE < unitsOfOne := by decide +kernel
    exact ⟨_, _, u01_eq n, u01_eq 1, hlow, u01Units_mono (one_le_toNat h0),
      (u01Units_mono (toNat_le_pred_max hmax)).trans_lt hhigh⟩

/-! ### Normalized words as encodings (R107, R132) -/

/-- A larger magnitude has no smaller exponent and fraction fields. -/
theorem magnitudeBits_mono {u v : Nat} (h : u ≤ v) : magnitudeBits u ≤ magnitudeBits v := by
  unfold magnitudeBits
  rcases (spacingExp_mono h).lt_or_eq with hlt | heq
  · have hu : u / 2 ^ spacingExp u < 2 ^ 53 := by
      rw [Nat.div_lt_iff_lt_mul (by positivity), ← pow_add, Nat.add_comm]
      exact lt_spacing u
    have hv : 2 ^ 52 ≤ v / 2 ^ spacingExp v := by
      rw [Nat.le_div_iff_mul_le (by positivity), ← pow_add, Nat.add_comm]
      exact (spacingExp_spec v).resolve_left (by omega)
    omega
  · rw [heq]
    exact Nat.add_le_add_left (Nat.div_le_div_right h) _

theorem magnitudeBits_one : magnitudeBits unitsOfOne = 0x3FF0000000000000 := by decide +kernel

theorem u01_bits64_toNat (n : Word) : (u01 n).bits64.toNat = magnitudeBits (u01Units n) := by
  have hle := magnitudeBits_mono (u01Units_le_one n)
  rw [magnitudeBits_one] at hle
  rw [u01_eq, bits64_fin_toNat false (by omega), Bool.toNat_false, Nat.zero_mul, Nat.zero_add]

theorem u01_bits64_mono {a b : Word} (h : a.toNat ≤ b.toNat) :
    (u01 a).bits64.toNat ≤ (u01 b).bits64.toNat := by
  rw [u01_bits64_toNat, u01_bits64_toNat]
  exact magnitudeBits_mono (u01Units_mono h)

theorem u01_bits64_max : (u01 0xFFFFFFFF).bits64 = 0x3FF0000000000000#64 := by decide +kernel

theorem u01_bits64_zero : (u01 0).bits64 = 0x0000000000000000#64 := by decide +kernel

/-- R101, R107: the encoding of a normalized word is at most that of 1.0, is that of 1.0 for the
word 0xFFFFFFFF alone, and that of +0.0 for the word 0 alone. -/
theorem u01_bits64_range (n : Word) :
    (u01 n).bits64.toNat ≤ 0x3FF0000000000000 ∧
      ((u01 n).bits64 = 0x3FF0000000000000#64 ↔ n = 0xFFFFFFFF) ∧
      ((u01 n).bits64 = 0x0000000000000000#64 ↔ n = 0) := by
  have hlow : 0 < (u01 1).bits64.toNat := by decide +kernel
  have hhigh : (u01 0xFFFFFFFE).bits64.toNat < 0x3FF0000000000000 := by decide +kernel
  refine ⟨?_, ⟨fun h => ?_, fun h => h ▸ u01_bits64_max⟩,
    ⟨fun h => ?_, fun h => h ▸ u01_bits64_zero⟩⟩
  · have hmono := u01_bits64_mono (b := 0xFFFFFFFF) (Nat.le_of_lt_succ n.isLt)
    rw [u01_bits64_max] at hmono
    exact hmono
  · by_contra hmax
    have hmono := u01_bits64_mono (toNat_le_pred_max hmax)
    rw [h] at hmono
    exact absurd (hmono.trans_lt hhigh) (by decide)
  · by_contra h0
    have hmono := u01_bits64_mono (one_le_toNat h0)
    rw [h] at hmono
    exact absurd (hlow.trans_le hmono) (by decide)

/-- Settles O38: RESF is the encoding of the normalized word. -/
theorem mtF64Range : Obligations.MtF64Range := by
  intro s t m hm h
  rw [exec_mtF64, mtF64_of_some hm] at h
  cases h
  exact u01_bits64_range _

/-- Settles O44: where the combiner gives a word, it has kept FAULT, and HYBRID writes the encoding
of the normalized word. -/
theorem hybridRange : Obligations.HybridRange := by
  intro P s t h hw
  obtain ⟨hle, hone, -⟩ := u01_bits64_range h
  refine ⟨?_, ?_⟩
  · rcases hybridWord_status P s with ⟨_, _, hf, -⟩ | ⟨_, _, hw', hfault, -⟩
    · exact absurd (hf.symm.trans hw) nofun
    · rw [hw] at hw'
      cases hw'
      rw [hybrid_of_word hw]
      exact hfault
  · rw [hybrid_of_word hw]
    exact ⟨hle, hone⟩

/-- Settles O42: the range check by encoding, and CC.F64 writes a value that passes it. -/
theorem ccValuesAreTheUnitInterval : Obligations.CcValuesAreTheUnitInterval := by
  refine ⟨inUnit_ofBits_iff, inUnit_iff_exists_unitF64, fun s t hc h => ?_⟩
  obtain ⟨c, hc⟩ := Option.ne_none_iff_exists'.1 hc
  rw [exec_ccF64, ccF64_of_some hc] at h
  cases h
  have hunit := UnitF64.inUnit_bits (Config.params.cc.nextF64 c).1
  refine ⟨hunit, fun hone => ?_⟩
  change (Config.params.cc.nextF64 c).1.bits = 0x3FF0000000000000#64 at hone
  rw [hone, inUnit_ofBits_iff] at hunit
  exact absurd hunit (by decide)

/-! ### The bonus number (R146) -/

/-- R146: the rounded product of a normalized word with 26, in units. -/
def pbProduct (n : Word) : Nat := roundUnits (u01Units n * (26 * unitsOfOne)) unitsOfOne

theorem pbProduct_mono {a b : Word} (h : a.toNat ≤ b.toNat) : pbProduct a ≤ pbProduct b :=
  roundUnits_mono unitsOfOne_pos (Nat.mul_le_mul_right _ (u01Units_mono h))

theorem fmul_u01_26 (n : Word) : fmul (u01 n) (F64.ofNat 26) = .fin false (pbProduct n) := by
  have hle : pbProduct n ≤ 26 * unitsOfOne := by
    refine roundUnits_le unitsOfOne_pos (ofNat_representable (by norm_num)) ?_
    rw [Nat.mul_comm]
    exact Nat.mul_le_mul_left _ (u01Units_le_one n)
  rw [u01_eq]
  exact ofRounded_of_le hle (ofNat_lt_overflow (by norm_num)) _

theorem pbIndex_u01 (n : Word) : pbIndex (u01 n) = pbProduct n / unitsOfOne + 1 := by
  change ((fmul (u01 n) (F64.ofNat 26)).floor + 1).toNat = _
  rw [fmul_u01_26, floor_fin_false]
  generalize pbProduct n / unitsOfOne = q
  omega

theorem pbIndex_mono {a b : Word} (h : a.toNat ≤ b.toNat) : pbIndex (u01 a) ≤ pbIndex (u01 b) := by
  rw [pbIndex_u01, pbIndex_u01]
  exact Nat.add_le_add_right (Nat.div_le_div_right (pbProduct_mono h)) 1

theorem pbIndex_u01_floor (n : Word) :
    (pbIndex (u01 n) : Int) = (fmul (u01 n) (F64.ofNat 26)).floor + 1 := by
  rw [pbIndex_u01, fmul_u01_26, floor_fin_false]
  exact Nat.cast_succ _

theorem one_le_pbIndex_u01 (n : Word) : 1 ≤ pbIndex (u01 n) := by
  rw [pbIndex_u01]
  exact Nat.le_add_left 1 _

/-- Settles O46: a larger word gives no smaller bonus number, so the values at 0x09D89D89 and
0xFFFFFFFE bound those of the words below; 1.0 is the normalized word 0xFFFFFFFF. -/
theorem pbIndexRange : Obligations.PbIndexRange := by
  refine ⟨fun b hb => ?_, fun h => ⟨pbIndex_u01_floor h, fun hmax => ⟨one_le_pbIndex_u01 h, ?_⟩⟩,
    by decide +kernel, by decide +kernel, fun h hlt => ?_⟩
  · rcases hb with hb | hb
    · obtain ⟨q, -, hfloor, -⟩ := fmul_unit_integer hb (k := 26) (by norm_num)
      change (((fmul (F64.ofBits b) (F64.ofNat 26)).floor + 1).toNat : Int) = _
      rw [hfloor]
      omega
    · obtain ⟨-, hone, -⟩ := normalizationRange
      rw [hb, ← hone]
      exact pbIndex_u01_floor _
  · have htop : pbIndex (u01 0xFFFFFFFE) = 26 := by decide +kernel
    exact htop ▸ pbIndex_mono (toNat_le_pred_max hmax)
  · have htop : pbIndex (u01 0x09D89D89) = 1 := by decide +kernel
    have hle : pbIndex (u01 h) ≤ 1 := htop ▸ pbIndex_mono (Nat.le_of_lt_succ hlt)
    exact le_antisymm hle (one_le_pbIndex_u01 h)

end Sys2Proof.Machine

/-! ## 00_scope.md: rounding is to nearest, ties to even -/

namespace Sys2Proof.Machine

/-! ### Whole numbers -/

/-- The distance of `num / den` from the whole number `b`, in units of `1 / den`. -/
def distance (num den b : Nat) : Nat := ((num : Int) - b * den).natAbs

theorem distance_of_le {num den b : Nat} (h : b * den ≤ num) :
    distance num den b = num - b * den := by
  rw [distance, ← Nat.cast_mul]
  omega

theorem distance_of_ge {num den b : Nat} (h : num ≤ b * den) :
    distance num den b = b * den - num := by
  rw [distance, ← Nat.cast_mul]
  omega

/-- What `roundNearestEven` chooses, from the quotient and remainder. -/
theorem roundNearestEven_cases (num den : Nat) :
    (2 * (num % den) < den ∧ roundNearestEven num den = num / den) ∨
      (den < 2 * (num % den) ∧ roundNearestEven num den = num / den + 1) ∨
      (2 * (num % den) = den ∧ roundNearestEven num den = num / den + num / den % 2) := by
  unfold roundNearestEven
  dsimp only
  split
  · exact .inl ⟨‹_›, rfl⟩
  · split
    · exact .inr (.inl ⟨‹_›, rfl⟩)
    · exact .inr (.inr ⟨by omega, rfl⟩)

/-- The distance from the whole numbers at and around the quotient: the remainder at the quotient
itself, what it lacks to the denominator at the next, and more by at least a denominator beyond. -/
theorem distance_cases (num : Nat) {den : Nat} (hd : 0 < den) (b : Nat) :
    (b = num / den ∧ distance num den b = num % den) ∨
      (b = num / den + 1 ∧ distance num den b = den - num % den) ∨
      (b ≠ num / den ∧ b ≠ num / den + 1 ∧ den ≤ distance num den b) := by
  have hnum : num / den * den + num % den = num := Nat.div_add_mod' num den
  have hr := Nat.mod_lt num hd
  generalize num / den = q at *
  rcases lt_trichotomy b q with hlt | rfl | hgt
  · have hmul : (b + 1) * den ≤ q * den := Nat.mul_le_mul_right den hlt
    rw [Nat.succ_mul] at hmul
    rw [distance_of_le (by omega)]
    omega
  · rw [distance_of_le (by omega)]
    omega
  · rcases (Nat.succ_le_of_lt hgt).eq_or_lt with rfl | hgt
    · have hmul := Nat.succ_mul q den
      rw [distance_of_ge (by omega)]
      omega
    · have hmul : (q + 2) * den ≤ b * den := Nat.mul_le_mul_right den hgt
      rw [Nat.add_mul, Nat.two_mul] at hmul
      rw [distance_of_ge (by omega)]
      omega

/-- `roundNearestEven` is nearest, and even where another whole number is as near. -/
theorem roundNearestEven_nearest (num : Nat) {den : Nat} (hd : 0 < den) (b : Nat) :
    distance num den (roundNearestEven num den) ≤ distance num den b ∧
      (b ≠ roundNearestEven num den →
        distance num den (roundNearestEven num den) = distance num den b →
          2 ∣ roundNearestEven num den) := by
  have hr := Nat.mod_lt num hd
  have hq := distance_cases num hd (roundNearestEven num den)
  have hb := distance_cases num hd b
  have hchoice := roundNearestEven_cases num den
  generalize roundNearestEven num den = r at *
  generalize num / den = q at *
  omega

/-! ### Binary64 magnitudes -/

theorem distance_mul_pow (num den b k : Nat) :
    distance num den (b * 2 ^ k) = distance num (den * 2 ^ k) b := by
  unfold distance
  push_cast
  congr 1
  ring

/-- A representable magnitude is a multiple of the spacing at the quotient, or lies below the whole
binade, all of which is at or below the quotient. -/
theorem representable_cases {r num den : Nat} (hr : Representable r) :
    (∃ b, r = b * 2 ^ spacingExp (num / den)) ∨
      (r < 2 ^ 52 * 2 ^ spacingExp (num / den) ∧
        2 ^ 52 * 2 ^ spacingExp (num / den) ≤ num / den) := by
  rcases spacingExp_spec (num / den) with h0 | hk
  · exact .inl ⟨r, by rw [h0, pow_zero, Nat.mul_one]⟩
  · rw [← pow_add, Nat.add_comm 52]
    by_cases hlt : r < 2 ^ (spacingExp (num / den) + 52)
    · exact .inr ⟨hlt, hk⟩
    · exact .inl (representable_multiple hr (Nat.le_of_not_lt hlt))

/-- Of two magnitudes at or below the exact quotient, the larger is nearer. -/
theorem distance_lt_of_lt {num den a b : Nat} (hd : 0 < den) (hab : a < b)
    (hb : b * den ≤ num) : distance num den b < distance num den a := by
  have hmul : a * den < b * den := Nat.mul_lt_mul_of_pos_right hab hd
  rw [distance_of_le hb, distance_of_le (hmul.le.trans hb)]
  omega

/-- The significand of a rounded magnitude is even where `roundNearestEven` gave an even number. -/
theorem significand_even {q k : Nat} (heven : 2 ∣ q) (hhi : q ≤ 2 ^ 53)
    (hlo : k = 0 ∨ 2 ^ 52 ≤ q) : 2 ∣ q * 2 ^ k / 2 ^ spacingExp (q * 2 ^ k) := by
  rcases hhi.lt_or_eq with hlt | rfl
  · have hspacing : spacingExp (q * 2 ^ k) = k := by
      by_cases hq : 2 ^ 52 ≤ q
      · exact spacingExp_significand hq hlt k
      · obtain rfl := hlo.resolve_right hq
        rw [pow_zero, Nat.mul_one]
        exact (spacingExp_spec q).resolve_right fun h => by
          have : 2 ^ 52 ≤ 2 ^ (spacingExp q + 52) := Nat.pow_le_pow_right (by decide) (by omega)
          omega
    rwa [hspacing, Nat.mul_div_cancel _ (by positivity)]
  · have hcarry : 2 ^ 53 * 2 ^ k = 2 ^ 52 * 2 ^ (k + 1) := by rw [pow_succ 2 k]; ring
    rw [hcarry, spacingExp_significand le_rfl (by decide), Nat.mul_div_cancel _ (by positivity)]
    decide

/-- R11: the quotient in whole spacings has at most 53 bits, and no fewer above the lowest
binade. -/
theorem roundNearestEven_spacing (num : Nat) {den : Nat} (hd : 0 < den) :
    roundNearestEven num (den * 2 ^ spacingExp (num / den)) ≤ 2 ^ 53 ∧
      (spacingExp (num / den) = 0 ∨
        2 ^ 52 ≤ roundNearestEven num (den * 2 ^ spacingExp (num / den))) := by
  have hpos : 0 < den * 2 ^ spacingExp (num / den) := by positivity
  refine ⟨roundNearestEven_le hpos ?_, (spacingExp_spec (num / den)).imp_right fun hk =>
    le_roundNearestEven hpos ?_⟩
  · calc num ≤ den * (num / den + 1) := (Nat.lt_mul_div_succ num hd).le
      _ ≤ den * 2 ^ (spacingExp (num / den) + 53) := Nat.mul_le_mul_left _ (lt_spacing _)
      _ = 2 ^ 53 * (den * 2 ^ spacingExp (num / den)) := by rw [pow_add]; ring
  · calc 2 ^ 52 * (den * 2 ^ spacingExp (num / den))
        = 2 ^ (spacingExp (num / den) + 52) * den := by rw [pow_add]; ring
      _ ≤ num / den * den := Nat.mul_le_mul_right _ hk
      _ ≤ num := Nat.div_mul_le_self _ _

/-- R11: rounding is to the nearest binary64 magnitude, and to the even one of two as near. -/
theorem roundUnits_nearest (num : Nat) {den : Nat} (hd : 0 < den) {r : Nat}
    (hr : Representable r) :
    distance num den (roundUnits num den) ≤ distance num den r ∧
      (r ≠ roundUnits num den → distance num den (roundUnits num den) = distance num den r →
        2 ∣ roundUnits num den / 2 ^ spacingExp (roundUnits num den)) := by
  have hpos : 0 < den * 2 ^ spacingExp (num / den) := by positivity
  obtain ⟨hhi, hlo⟩ := roundNearestEven_spacing num hd
  rw [roundUnits_eq, distance_mul_pow]
  rcases representable_cases (num := num) (den := den) hr with ⟨b, rfl⟩ | ⟨hlt, hle⟩
  · obtain ⟨hnear, heven⟩ := roundNearestEven_nearest num hpos b
    rw [distance_mul_pow]
    exact ⟨hnear, fun hne htie => significand_even (heven (fun h => hne (by rw [h])) htie) hhi hlo⟩
  · obtain ⟨hnear, -⟩ := roundNearestEven_nearest num hpos (2 ^ 52)
    rw [← distance_mul_pow num den (2 ^ 52)] at hnear
    have hfar := hnear.trans_lt
      (distance_lt_of_lt hd hlt ((Nat.le_div_iff_mul_le hd).1 hle))
    exact ⟨hfar.le, fun _ htie => absurd htie hfar.ne⟩

/-- Settles O56: rounding by `roundUnits_nearest`; the other clauses are the model's definitions. -/
theorem roundingIsToNearestEven : Obligations.RoundingIsToNearestEven := by
  refine ⟨fun num den hd => ⟨roundUnits_representable hd, fun r hr => roundUnits_nearest num hd hr⟩,
    fun _ _ _ _ => rfl, fun _ _ _ _ hv => if_neg hv, fun _ _ h => if_pos h,
    fun _ _ h => if_neg (Nat.not_lt.2 h), ?_, ?_⟩
  · unfold unitsOfOne
    rfl
  · unfold unitsOfOverflow
    congr 1

end Sys2Proof.Machine

/-! ## 41_mt19937.md: tempering and the sequence of extractions -/

namespace Sys2Proof.Machine

/-! ### The four steps of tempering are one to one (R100) -/

/-- Read from the highest bit down: bit i of a word is that of its image, but for bit i + n. -/
theorem xor_shiftRight_injective {n : Nat} (hn : 0 < n) :
    Function.Injective fun y : Word => y ^^^ (y >>> n) := by
  intro a b h
  have hbit (i : Nat) (ih : a.getLsbD (n + i) = b.getLsbD (n + i)) : a.getLsbD i = b.getLsbD i := by
    have := congrArg (BitVec.getLsbD · i) h
    simpa [ih] using this
  have hall (m i : Nat) (hi : 32 ≤ i + m) : a.getLsbD i = b.getLsbD i := by
    induction m generalizing i with
    | zero => rw [BitVec.getLsbD_of_ge a i hi, BitVec.getLsbD_of_ge b i hi]
    | succ m ih => exact hbit i (ih (n + i) (by omega))
  exact BitVec.eq_of_getLsbD_eq fun i _ => hall 32 i (Nat.le_add_left 32 i)

/-- Read from the lowest bit up: bit i of a word is that of its image, but for bit i - n. -/
theorem xor_shiftLeft_and_injective {n : Nat} (hn : 0 < n) (mask : Word) :
    Function.Injective fun y : Word => y ^^^ ((y <<< n) &&& mask) := by
  intro a b h
  refine BitVec.eq_of_getLsbD_eq fun i => ?_
  induction i using Nat.strong_induction_on with
  | _ i ih =>
    intro hi
    have hbit := congrArg (BitVec.getLsbD · i) h
    by_cases hin : i < n
    · simpa [hi, hin] using hbit
    · have hlow := ih (i - n) (by omega) (by omega)
      simpa only [BitVec.getLsbD_xor, BitVec.getLsbD_and, BitVec.getLsbD_shiftLeft, hlow,
        Bool.xor_left_inj] using hbit

theorem temper_injective : Function.Injective temper :=
  (xor_shiftRight_injective (n := 18) (by decide)).comp <|
    (xor_shiftLeft_and_injective (n := 15) (by decide) 0xEFC60000#32).comp <|
      (xor_shiftLeft_and_injective (n := 7) (by decide) 0x9D2C5680#32).comp
        (xor_shiftRight_injective (n := 11) (by decide))

/-- Settles O33: each step is one to one, and a one-to-one map of finitely many words is onto. -/
theorem temperingIsABijection : Obligations.TemperingIsABijection :=
  ⟨fun _ => rfl, Finite.injective_iff_bijective.1 temper_injective, by decide⟩

/-! ### The state that an extraction reads (R105) -/

/-- R105: extraction number k + 1 after seeding reads word k mod 624 of the array twisted once for
every 624 extractions begun. -/
theorem refill_mtAfter (seed : Word) (k : Nat) :
    refill (mtAfter (mtSeed seed) k) =
      { words := twisted (mtSeed seed).words (k / 624 + 1), mti := k % 624 } := by
  induction k with
  | zero => exact refill_of_ge (mtSeed_mti seed).ge
  | succ k ih =>
    have hwords : (mtAfter (mtSeed seed) (k + 1)).words = _ := mtNext_words _
    have hmti : (mtAfter (mtSeed seed) (k + 1)).mti = _ := mtNext_mti _
    rw [ih] at hwords hmti
    dsimp only at hwords hmti
    by_cases hlast : k % 624 = 623
    · have hdiv : (k + 1) / 624 = k / 624 + 1 := by omega
      have hmod : (k + 1) % 624 = 0 := by omega
      rw [refill_of_ge (by omega), hdiv, hmod, twisted, ← hwords]
      rfl
    · have hdiv : (k + 1) / 624 = k / 624 := by omega
      have hmod : (k + 1) % 624 = k % 624 + 1 := by omega
      rw [refill_of_lt (by omega), hdiv, hmod, ← hwords, ← hmti]

theorem mtAfter_succ_mti (seed : Word) (k : Nat) :
    (mtAfter (mtSeed seed) (k + 1)).mti = k % 624 + 1 := by
  rw [mtAfter, mtNext_mti, refill_mtAfter]

/-- R99: the value of an extraction is the tempered word at the refilled state's cursor. -/
theorem mtNext_value (m : MtState) :
    some (mtNext m).1 = ((refill m).words[(refill m).mti]?).map temper := by
  rw [Vector.getElem?_eq_getElem (refill_mti_lt m)]
  rfl

/-- Settles O39: the cursor before extraction k is 624 after seeding and (k - 2) mod 624 + 1 from
then on, and the word read is that of the refilled state. -/
theorem extractionSequence : Obligations.ExtractionSequence := by
  intro seed k hk
  obtain ⟨k, rfl⟩ := Nat.exists_eq_add_of_le' hk
  rw [Nat.add_sub_cancel]
  refine ⟨?_, by rw [mtNext_value, refill_mtAfter]⟩
  cases k with
  | zero => exact iff_of_true (mtSeed_mti seed).ge rfl
  | succ k =>
    rw [mtAfter_succ_mti]
    omega

end Sys2Proof.Machine

/-! ## 10_state.md: what each command completes in, and its frame -/

namespace Sys2Proof.Machine

/-! ### The state each command completes in -/

/-- R23: the state in which a command completes, and what it needs to complete. -/
inductive Completes (s : State) : Instr → State → Prop where
  | init {r : F64} (hw : checkWeak (weakAnswer s) = .ok r) :
      Completes s .init
        { s with
          mt := some (mtSeed (combinedSeed r (timeAnswer s)))
          cc := some (Config.params.cc.init (deriveKey (combinedSeed r (timeAnswer s))))
          pool := []
          cpos := s.cpos + 1
          weakAnswers := s.weakAnswers.tail
          weakQueries := s.weakQueries + 1
          timeAnswers := s.timeAnswers.tail
          timeQueries := s.timeQueries + 1 }
  | mtSeed (seed : Word) :
      Completes s (.mtSeed seed) { s with mt := some (mtSeed seed), cpos := s.cpos + 2 }
  | mtU32 {m : MtState} (hm : s.mt = some m) :
      Completes s .mtU32
        { s with mt := some (mtNext m).2, res := s.res.set 0 (mtNext m).1, cpos := s.cpos + 1 }
  | mtF64 {m : MtState} (hm : s.mt = some m) :
      Completes s .mtF64
        { s with
          mt := some (mtNext m).2
          resf := (u01 (mtNext m).1).bits64
          cpos := s.cpos + 1 }
  | ccU32 {c : CcState} (hc : s.cc = some c) :
      Completes s .ccU32
        { s with
          cc := some (Config.params.cc.nextU32 c).2
          res := s.res.set 0 (Config.params.cc.nextU32 c).1
          cpos := s.cpos + 1 }
  | ccF64 {c : CcState} (hc : s.cc = some c) :
      Completes s .ccF64
        { s with
          cc := some (Config.params.cc.nextF64 c).2
          resf := (Config.params.cc.nextF64 c).1.bits
          cpos := s.cpos + 1 }
  | hybrid {m : MtState} {c : CcState} {r : F64} (hm : s.mt = some m) (hc : s.cc = some c)
      (hw : checkWeak (weakAnswer s) = .ok r) :
      Completes s .hybrid
        { s with
          cc := some (Config.params.cc.nextU32 c).2
          mt := some (mtNext m).2
          resf := (u01 (combinedWord Config.params m c r)).bits64
          cpos := s.cpos + 1
          weakAnswers := s.weakAnswers.tail
          weakQueries := s.weakQueries + 1 }
  | drawMain {c : CcState} (hc : s.cc = some c) :
      Completes s .drawMain { s with acc := [], ndraw := 0, busy := true }
  | drawPb {m : MtState} {c : CcState} {r : F64} (hm : s.mt = some m) (hc : s.cc = some c)
      (hw : checkWeak (weakAnswer s) = .ok r) :
      Completes s .drawPb
        { s with
          cc := some (Config.params.cc.nextU32 c).2
          mt := some (mtNext m).2
          res := s.res.set 0 (BitVec.ofNat 32 (pbIndex (u01 (combinedWord Config.params m c r))))
          cpos := s.cpos + 1
          weakAnswers := s.weakAnswers.tail
          weakQueries := s.weakQueries + 1 }

/-- R162: a state that a command's fault leaves: the state before it, or that state with one weak
query used up, with the fault taken. -/
def FaultsTo (s t : State) : Prop := ∃ c, t = s.raise c ∨ t = s.queriedWeak.raise c

section
variable (s : State)

theorem init_faults_or_completes :
    FaultsTo s (init Config.params s) ∨ Completes s .init (init Config.params s) := by
  rcases hw : checkWeak (weakAnswer s) with c | r
  · exact .inl ⟨c, .inr (init_of_error hw)⟩
  · rw [init_of_ok hw]
    exact .inr (.init hw)

theorem mtU32_faults_or_completes : FaultsTo s (mtU32 s) ∨ Completes s .mtU32 (mtU32 s) := by
  rcases hm : s.mt with _ | m
  · exact .inl ⟨_, .inl (mtU32_of_none hm)⟩
  · rw [mtU32_of_some hm]
    exact .inr (.mtU32 hm)

theorem mtF64_faults_or_completes : FaultsTo s (mtF64 s) ∨ Completes s .mtF64 (mtF64 s) := by
  rcases hm : s.mt with _ | m
  · exact .inl ⟨_, .inl (mtF64_of_none hm)⟩
  · rw [mtF64_of_some hm]
    exact .inr (.mtF64 hm)

theorem ccU32_faults_or_completes :
    FaultsTo s (ccU32 Config.params s) ∨ Completes s .ccU32 (ccU32 Config.params s) := by
  rcases hc : s.cc with _ | c
  · exact .inl ⟨_, .inl (ccU32_of_none hc)⟩
  · rw [ccU32_of_some hc]
    exact .inr (.ccU32 hc)

theorem ccF64_faults_or_completes :
    FaultsTo s (ccF64 Config.params s) ∨ Completes s .ccF64 (ccF64 Config.params s) := by
  rcases hc : s.cc with _ | c
  · exact .inl ⟨_, .inl (ccF64_of_none hc)⟩
  · rw [ccF64_of_some hc]
    exact .inr (.ccF64 hc)

theorem drawMain_faults_or_completes :
    FaultsTo s (drawMainStart s) ∨ Completes s .drawMain (drawMainStart s) := by
  rcases hc : s.cc with _ | c
  · exact .inl ⟨_, .inl (drawMainStart_of_none hc)⟩
  · rw [drawMainStart_of_some hc]
    exact .inr (.drawMain hc)

/-- R130: the combiner's fault is one taken in the state before it or after its query, or both
engines are valid and the reading has passed its checks. -/
theorem hybridWord_faults_or_word :
    (∃ e u, hybridWord Config.params s = .fault e u ∧ FaultsTo s (u.raise e)) ∨
      ∃ m c r, s.mt = some m ∧ s.cc = some c ∧ checkWeak (weakAnswer s) = .ok r ∧
        hybridWord Config.params s = .word (combinedWord Config.params m c r)
          (combinerDraws Config.params m c s.queriedWeak) := by
  rcases hybridWord_cases Config.params s with
    ⟨-, h⟩ | ⟨_, -, -, h⟩ | ⟨_, _, e, -, -, -, h⟩ | hword
  · exact .inl ⟨_, _, h, _, .inl rfl⟩
  · exact .inl ⟨_, _, h, _, .inl rfl⟩
  · exact .inl ⟨_, _, h, e, .inr rfl⟩
  · exact .inr hword

theorem hybrid_faults_or_completes :
    FaultsTo s (hybrid Config.params s) ∨ Completes s .hybrid (hybrid Config.params s) := by
  rcases hybridWord_faults_or_word s with ⟨e, u, h, hfault⟩ | ⟨m, c, r, hm, hc, hw, h⟩
  · rw [hybrid_of_fault h]
    exact .inl hfault
  · rw [hybrid_of_word h]
    exact .inr (.hybrid hm hc hw)

theorem drawPb_faults_or_completes :
    FaultsTo s (drawPb Config.params s) ∨ Completes s .drawPb (drawPb Config.params s) := by
  rcases hybridWord_faults_or_word s with ⟨e, u, h, hfault⟩ | ⟨m, c, r, hm, hc, hw, h⟩
  · rw [drawPb_of_fault h]
    exact .inl hfault
  · rw [drawPb_of_word h]
    exact .inr (.drawPb hm hc hw)

end

/-- Every command takes a fault or completes. -/
theorem exec_faults_or_completes {i : Instr} {s t : State} (h : exec i s = .next t) :
    FaultsTo s t ∨ Completes s i t := by
  cases i with
  | init => cases h; exact init_faults_or_completes s
  | mtSeed seed => cases h; exact .inr (.mtSeed seed)
  | mtU32 => cases h; exact mtU32_faults_or_completes s
  | mtF64 => cases h; exact mtF64_faults_or_completes s
  | ccU32 => cases h; exact ccU32_faults_or_completes s
  | ccF64 => cases h; exact ccF64_faults_or_completes s
  | hybrid => cases h; exact hybrid_faults_or_completes s
  | drawMain => cases h; exact drawMain_faults_or_completes s
  | drawPb => cases h; exact drawPb_faults_or_completes s

theorem FaultsTo.fault_ne_none {s t : State} (h : FaultsTo s t) : t.fault ≠ none := by
  obtain ⟨c, rfl | rfl⟩ := h <;> exact nofun

theorem FaultsTo.cpos {s t : State} (h : FaultsTo s t) : t.cpos = s.cpos := by
  obtain ⟨c, rfl | rfl⟩ := h <;> rfl

/-- A command that leaves FAULT at 0 has completed. -/
theorem completes_of_no_fault {i : Instr} {s t : State} (h : exec i s = .next t)
    (hf : t.fault = none) : Completes s i t :=
  (exec_faults_or_completes h).resolve_left fun hfault => hfault.fault_ne_none hf

/-! ### What a completed command leaves unchanged (R23) -/

section
variable {i : Instr} {s t : State} (h : Completes s i t)
include h

theorem Completes.fault : t.fault = s.fault := by cases h <;> rfl

theorem Completes.stream : t.stream = s.stream := by cases h <;> rfl

theorem Completes.cpos :
    t.cpos = if i = .drawMain then s.cpos else s.cpos + (encode i).length := by
  cases h <;> rfl

theorem Completes.res (hi : i ∉ [.mtU32, .ccU32, .drawPb]) : t.res = s.res := by
  cases h with
  | mtU32 | ccU32 | drawPb => exact absurd hi (by decide)
  | init | mtSeed | mtF64 | ccF64 | hybrid | drawMain => rfl

theorem Completes.readRes {k : Fin 5} (hk : k ≠ 0) : readRes t k = readRes s k := by
  have hset (v : Word) : (s.res.set 0 v)[k] = s.res[k] :=
    Vector.getElem_set_ne _ _ fun h0 => hk (Fin.ext h0.symm)
  cases h with
  | mtU32 | ccU32 | drawPb => exact hset _
  | init | mtSeed | mtF64 | ccF64 | hybrid | drawMain => rfl

theorem Completes.resf (hi : i ∉ [.mtF64, .ccF64, .hybrid]) : t.resf = s.resf := by
  cases h with
  | mtF64 | ccF64 | hybrid => exact absurd hi (by decide)
  | init | mtSeed | mtU32 | ccU32 | drawMain | drawPb => rfl

theorem Completes.mt (hi : i ∈ [.ccU32, .ccF64, .drawMain]) : t.mt = s.mt := by
  cases h with
  | ccU32 | ccF64 | drawMain => rfl
  | init | mtU32 | mtF64 | hybrid | drawPb => exact absurd hi (by decide)
  | mtSeed => simp at hi

theorem Completes.cc (hi : i ∉ [.init, .ccU32, .ccF64, .hybrid, .drawPb]) : t.cc = s.cc := by
  cases h with
  | init | ccU32 | ccF64 | hybrid | drawPb => exact absurd hi (by decide)
  | mtSeed | mtU32 | mtF64 | drawMain => rfl

theorem Completes.pool (hi : i ≠ .init) : t.pool = s.pool := by
  cases h with
  | init => exact absurd rfl hi
  | mtSeed | mtU32 | mtF64 | ccU32 | ccF64 | hybrid | drawMain | drawPb => rfl

theorem Completes.iterator (hi : i ≠ .drawMain) :
    t.acc = s.acc ∧ t.ndraw = s.ndraw ∧ t.busy = s.busy := by
  cases h with
  | drawMain => exact absurd rfl hi
  | init | mtSeed | mtU32 | mtF64 | ccU32 | ccF64 | hybrid | drawPb => exact ⟨rfl, rfl, rfl⟩

theorem Completes.weakSource (hi : i ∉ [.init, .hybrid, .drawPb]) :
    t.weakAnswers = s.weakAnswers ∧ t.weakQueries = s.weakQueries := by
  cases h with
  | init | hybrid | drawPb => exact absurd hi (by decide)
  | mtSeed | mtU32 | mtF64 | ccU32 | ccF64 | drawMain => exact ⟨rfl, rfl⟩

theorem Completes.timeSource (hi : i ≠ .init) :
    t.timeAnswers = s.timeAnswers ∧ t.timeQueries = s.timeQueries := by
  cases h with
  | init => exact absurd rfl hi
  | mtSeed | mtU32 | mtF64 | ccU32 | ccF64 | hybrid | drawMain | drawPb => exact ⟨rfl, rfl⟩

/-- R31: a command leaves the cursor in [0, 624], be it seeded or advanced. -/
theorem Completes.mtiRange (hs : ∀ m, s.mt = some m → m.mti ≤ 624) {m : MtState}
    (hm : t.mt = some m) : m.mti ≤ 624 := by
  cases h with
  | init | mtSeed =>
    rw [← Option.some.inj hm]
    exact (mtSeed_mti _).le
  | mtU32 | mtF64 | hybrid | drawPb =>
    rw [← Option.some.inj hm]
    exact mtNext_mti_le _
  | ccU32 | ccF64 | drawMain => exact hs m hm

theorem Completes.poolEmpty (hs : s.pool = []) : t.pool = [] := by
  cases h with
  | init => rfl
  | mtSeed | mtU32 | mtF64 | ccU32 | ccF64 | hybrid | drawMain | drawPb => exact hs

/-- R28, R141: what DRAW.MAIN's start leaves. -/
theorem Completes.of_drawMain (hi : i = .drawMain) :
    t.cc.isSome = true ∧ t.cpos = s.cpos ∧ t.acc = [] ∧ t.ndraw = 0 ∧ t.busy = true := by
  cases h with
  | drawMain hc => exact ⟨Option.isSome_iff_exists.2 ⟨_, hc⟩, rfl, rfl, rfl, rfl⟩
  | init | mtSeed | mtU32 | mtF64 | ccU32 | ccF64 | hybrid | drawPb => cases hi

end

/-- Settles O25: one lemma per part of the state. -/
theorem commandFrames : Obligations.CommandFrames := by
  intro i s t h hf
  have hc := completes_of_no_fault h hf
  exact ⟨hc.res, fun _ => hc.readRes, hc.resf, hc.mt, hc.cc, hc.pool, hc.iterator, hc.stream,
    hc.weakSource, hc.timeSource⟩

/-! ### How cpos moves (R24) -/

theorem drawStep_cpos {P : Params} {s : State} (hf : s.fault = none) (hb : s.busy = true) :
    (drawStep P s).cpos =
      if (drawStep P s).busy = false ∧ (drawStep P s).fault = none then s.cpos + 1 else s.cpos := by
  rcases drawStep_cases P s with
    ⟨-, h⟩ | ⟨_, -, -, h⟩ | ⟨c, -, -, -, h⟩ | ⟨c, -, -, -, h⟩ <;> rw [h]
  · exact (if_neg fun hx => nomatch hx.2).symm
  · exact (if_neg fun hx => nomatch hx.2).symm
  · rw [drawComplete_eq]
    exact (if_pos ⟨rfl, hf⟩).symm
  · exact (if_neg fun hx => Bool.false_ne_true (hx.1.symm.trans hb)).symm

/-- Settles O12: a fault keeps cpos and sets FAULT; a completed command keeps FAULT. -/
theorem commandPositionMoves : Obligations.CommandPositionMoves := by
  refine ⟨fun s t i hf h => ?_, fun P s => drawStep_cpos⟩
  rcases exec_faults_or_completes h with hfault | hc
  · rw [if_pos (.inl hfault.fault_ne_none), hfault.cpos]
  · have hft : t.fault = none := hc.fault.trans hf
    simp only [hc.cpos, hft, ne_eq, not_true_eq_false, false_or]

/-! ### The completion statements -/

/-- Settles O26: INIT with the reading accepted. -/
theorem initConstructsTheEngine : Obligations.InitConstructsTheEngine := by
  intro s b hw hb
  have hok : checkWeak (weakAnswer s) = .ok (F64.ofBits b) := hw ▸ checkWeak_ok hb
  exact congrArg Host.Outcome.next (init_of_ok hok)

/-- Settles O35: MT.SEED has no check, and its next state is one update. -/
theorem mtSeedReseeds : Obligations.MtSeedReseeds := fun s seed =>
  congrArg Host.Outcome.next (mtSeedCommand_eq seed s)

/-- Settles O36: a seeded MT state passes the one check. -/
theorem mtU32Extracts : Obligations.MtU32Extracts := fun _ _ hm =>
  congrArg Host.Outcome.next (mtU32_of_some hm)

/-- Settles O37: a seeded MT state passes the one check. -/
theorem mtF64Extracts : Obligations.MtF64Extracts := fun _ _ hm =>
  congrArg Host.Outcome.next (mtF64_of_some hm)

/-- Settles O40: a keyed stream cipher passes the one check. -/
theorem ccU32Extracts : Obligations.CcU32Extracts := fun _ _ hc =>
  congrArg Host.Outcome.next (ccU32_of_some hc)

/-- Settles O41: a keyed stream cipher passes the one check. -/
theorem ccF64Extracts : Obligations.CcF64Extracts := fun _ _ hc =>
  congrArg Host.Outcome.next (ccF64_of_some hc)

/-- R130: with both engines valid and a reading in range, the combiner gives its word. -/
theorem hybridWord_of_reading {P : Params} {s : State} {m : MtState} {c : CcState} {b : Bits64}
    (hm : s.mt = some m) (hc : s.cc = some c) (hw : weakAnswer s = some b)
    (hb : (F64.ofBits b).inUnit = true) :
    hybridWord P s = .word (combinedWord P m c (F64.ofBits b))
      (combinerDraws P m c s.queriedWeak) :=
  hybridWord_of_ok hm hc (hw ▸ checkWeak_ok hb)

/-- Settles O43: HYBRID writes the combiner's word, normalized. -/
theorem hybridCombines : Obligations.HybridCombines := fun _ _ _ _ hm hc hw hb =>
  congrArg Host.Outcome.next (hybrid_of_word (hybridWord_of_reading hm hc hw hb))

/-- Settles O55: DRAW.PB writes the bonus number of the combiner's word. -/
theorem drawPbDraws : Obligations.DrawPbDraws := fun _ _ _ _ hm hc hw hb =>
  congrArg Host.Outcome.next (drawPb_of_word (hybridWord_of_reading hm hc hw hb))

/-- Settles O47: a keyed stream cipher passes the one check. -/
theorem drawMainStarts : Obligations.DrawMainStarts := by
  intro s hc
  obtain ⟨c, hc⟩ := Option.ne_none_iff_exists'.1 hc
  exact congrArg Host.Outcome.next (drawMainStart_of_some hc)

/-- Settles O29: MT.SEED writes the MT state alone, which INIT overwrites; the host answers INIT
reads are the same before and after an MT.SEED. -/
theorem constructionOrder : Obligations.ConstructionOrder := by
  intro s t u seed hinit hf
  refine ⟨fun hu => ?_, fun v hu hv => ?_⟩
  · rw [mtSeedReseeds] at hu
    cases hu
    exact ⟨rfl, rfl⟩
  · rw [mtSeedReseeds] at hu
    cases hu
    cases completes_of_no_fault hinit hf with
    | init hw =>
      exact (Host.Outcome.next.inj ((exec_init _).symm.trans hv)).symm.trans (init_of_ok hw)

end Sys2Proof.Machine

/-! ## 60_exceptions.md and 70_reset_and_hazards.md: faults and the ends of a run -/

namespace Sys2Proof.Machine

/-! ### Faults (R162, R163) -/

theorem drawStep_fault_eq_raise {P : Params} {s : State} (hf : s.fault = none)
    (h : (drawStep P s).fault ≠ none) : ∃ c, drawStep P s = s.raise c := by
  rcases drawStep_cases P s with
    ⟨-, hs⟩ | ⟨_, -, -, hs⟩ | ⟨_, -, -, -, hs⟩ | ⟨_, -, -, -, hs⟩
  · exact ⟨_, hs⟩
  · exact ⟨_, hs⟩
  · rw [hs, drawComplete_eq] at h
    exact absurd hf h
  · rw [hs] at h
    exact absurd hf h

/-- Settles O22: what completes keeps FAULT, so what sets it is a raise. -/
theorem faultsArePrecise : Obligations.FaultsArePrecise := by
  refine ⟨fun s c => ⟨State.raise_eq s c, statusWord_getLsbD _ 3, statusWord_cause _,
    statusWord_getLsbD _ 2, step_of_faulted nofun⟩, fun s => step_of_illegalCommand,
    fun i s t hf h hft => ?_, fun P s => drawStep_fault_eq_raise⟩
  refine (exec_faults_or_completes h).resolve_right fun hc => hft ?_
  exact hc.fault.trans hf

theorem hybridWord_of_error {P : Params} {s : State} {e : Cause} (hm : s.mt ≠ none)
    (hc : s.cc ≠ none) (hw : checkWeak (weakAnswer s) = .error e) :
    hybridWord P s = .fault e s.queriedWeak := by
  obtain ⟨m, hm⟩ := Option.ne_none_iff_exists'.1 hm
  obtain ⟨c, hc⟩ := Option.ne_none_iff_exists'.1 hc
  unfold hybridWord
  rw [hm, hc]
  simp only [hw]

/-- R131, R145: both commands of the combiner take its fault. -/
theorem exec_of_combiner_fault {i : Instr} (hi : i = .hybrid ∨ i = .drawPb) {s u : State}
    {e : Cause} (h : hybridWord Config.params s = .fault e u) : exec i s = .next (u.raise e) := by
  rcases hi with rfl | rfl
  · exact congrArg Host.Outcome.next (hybrid_of_fault h)
  · exact congrArg Host.Outcome.next (drawPb_of_fault h)

/-- Settles O23: the combiner's checks, in their order, are the command's. -/
theorem combinerFaultPriority : Obligations.CombinerFaultPriority := by
  refine fun s i hi => ⟨fun hm => ?_, fun hm hc => ?_, fun hm hc hw => ?_, fun b hm hc hw hb => ?_⟩
    <;> refine exec_of_combiner_fault hi ?_
  · exact hybridWord_of_unseeded hm
  · exact hybridWord_of_unkeyed (Option.isSome_iff_ne_none.2 hm) hc
  · exact hybridWord_of_error hm hc (hw ▸ rfl)
  · exact hybridWord_of_error hm hc (hw ▸ checkWeak_range hb)

/-- Settles O24: INIT's checks on the reading come before the time query. -/
theorem initFaultsOnBadEntropy : Obligations.InitFaultsOnBadEntropy := by
  refine fun s => ⟨fun hw => ?_, fun b hw hb => ?_⟩
    <;> refine congrArg Host.Outcome.next (init_of_error ?_)
  · exact hw ▸ rfl
  · exact hw ▸ checkWeak_range hb

/-! ### How a run ends (R186) -/

theorem exec_next (i : Instr) (s : State) : ∃ t, exec i s = .next t := by
  cases i <;> exact ⟨_, rfl⟩

/-- R142: a busy block takes draw steps. -/
theorem step_of_busy {s : State} (hf : s.fault = none) (hb : s.busy = true) :
    step s = .next (drawStep Config.params s) := by
  simp [step, faultBit, hf, hb]

/-- The word at cpos and what follows it are the head and tail of the stream from cpos on. -/
theorem runEnd_of_idle {s : State} (hf : s.fault = none) (hb : s.busy = false) :
    runEnd s =
      match s.stream.drop s.cpos with
      | [] => some .final
      | w :: rest =>
        if w = Opcode.word .mtSeed ∧ rest = [] then some .awaitingOperand else none := by
  have hhere : s.stream[s.cpos]? = (s.stream.drop s.cpos)[0]? := by simp
  have hnext : s.stream[s.cpos + 1]? = (s.stream.drop s.cpos)[1]? := by simp
  simp only [runEnd, hf, hb, hhere, hnext]
  cases s.stream.drop s.cpos with
  | nil => rfl
  | cons w rest => cases rest <;> simp

/-- R60: an operand is missing exactly where MT.SEED's word is the last; any other word is reserved
or begins a command. -/
theorem decode_cons_cases (w : Word) (rest : List Word) :
    ((w = Opcode.word .mtSeed ∧ rest = []) ∧ decode (w :: rest) = .operandMissing) ∨
      (¬(w = Opcode.word .mtSeed ∧ rest = []) ∧
        (decode (w :: rest) = .illegalCommand ∨ ∃ i r, decode (w :: rest) = .instr i r)) := by
  rcases reserved_or_opcode w with hw | ⟨op, rfl⟩
  · have hill := decode_reserved hw
    refine .inr ⟨?_, .inl (hill rest)⟩
    rintro ⟨rfl, rfl⟩
    exact absurd (hill []) (by decide)
  · rw [decode_word]
    rcases op.assemble_cases rest with ⟨rfl, rfl, h⟩ | ⟨seed, r, rfl, rfl, h⟩ | ⟨hop, i, -, -, h⟩
    · exact .inl ⟨⟨rfl, rfl⟩, h⟩
    · exact .inr ⟨fun hx => (nomatch hx.2), .inr ⟨_, _, h⟩⟩
    · exact .inr ⟨fun hx => hop (Opcode.word_injective hx.1), .inr ⟨_, _, h⟩⟩

/-- R186: each way for the block to have no step is one end of a run; where it has one, the run has
not ended. -/
theorem runEnd_step_cases (s : State) :
    (runEnd s = some .faulted ∧ step s = .fault .halted) ∨
      (runEnd s = none ∧ ∃ t, step s = .next t) ∨
      (runEnd s = some .final ∧ step s = .fault .noCommandWord) ∨
      (runEnd s = some .awaitingOperand ∧ step s = .fault .operandMissing) := by
  by_cases hf : s.fault = none
  · cases hb : s.busy with
    | true =>
      exact .inr (.inl ⟨by simp [runEnd, hf, hb], _, step_of_busy hf hb⟩)
    | false =>
      rw [runEnd_of_idle hf hb]
      cases hd : s.stream.drop s.cpos with
      | nil =>
        exact .inr (.inr (.inl ⟨rfl, step_of_noWord hf hb (congrArg decode hd)⟩))
      | cons w rest =>
        have hfetch : fetch s = decode (w :: rest) := congrArg decode hd
        rcases decode_cons_cases w rest with ⟨hlast, h⟩ | ⟨hlast, h | ⟨i, r, h⟩⟩
        · exact .inr (.inr (.inr ⟨if_pos hlast, step_of_operandMissing hf hb (hfetch.trans h)⟩))
        · exact .inr (.inl ⟨if_neg hlast, _, step_of_illegalCommand hf hb (hfetch.trans h)⟩)
        · obtain ⟨t, ht⟩ := exec_next i s
          exact .inr (.inl ⟨if_neg hlast, t, (step_of_instr hf hb (hfetch.trans h)).trans ht⟩)
  · exact .inl ⟨runEnd_of_faulted hf, step_of_faulted hf⟩

/-- Settles O11: the four cases of `runEnd_step_cases` exclude each other on both sides. -/
theorem stepsEndAsClassified : Obligations.StepsEndAsClassified := by
  intro s
  rcases runEnd_step_cases s with ⟨h, hs⟩ | ⟨h, t, hs⟩ | ⟨h, hs⟩ | ⟨h, hs⟩ <;> rw [h, hs] <;> simp

/-! ### The halves of RESF (R22, R189) -/

theorem bits64_of_halves (x : Bits64) : x.extractLsb' 32 32 ++ x.extractLsb' 0 32 = x :=
  (BitVec.extractLsb'_append_extractLsb'_eq_extractLsb' (start₁ := 0) (start₂ := 32) rfl).trans
    BitVec.extractLsb'_eq_self

/-- Settles O58: a joined value has the halves it was joined from, and a register is its halves. -/
theorem resfHalves : Obligations.ResfHalves := by
  refine fun hiRead loRead => ⟨fun h => ?_, fun h => ?_, ?_, ?_⟩
  · rw [joinResfHalves, h]
    exact bits64_of_halves _
  · rw [joinResfHalves, ← h]
    exact bits64_of_halves _
  · exact BitVec.extractLsb'_append_eq_left
  · exact BitVec.extractLsb'_append_eq_right

end Sys2Proof.Machine

/-! ## 44_constrained_sampler.md: draw steps, the run of a DRAW.MAIN and its results -/

namespace Sys2Proof.Machine

/-! ### One draw step (R142, R143, R190) -/

/-- Settles O48: the step within the limit, with the fifth value and without. -/
theorem drawStepDrawsOneCandidate : Obligations.DrawStepDrawsOneCandidate := by
  refine ⟨fun s => step_of_busy, fun P s c hc hlimit => ?_⟩
  have hunder := drawLimitReached_eq_false.2 hlimit
  change drawStep P s = if (accept s.acc (candidate P c)).length = 5 then _ else _
  rcases drawStep_cases P s with
    ⟨hc', -⟩ | ⟨_, -, hl, -⟩ | ⟨c', hc', -, h5, h⟩ | ⟨c', hc', -, h5, h⟩
  · cases hc.symm.trans hc'
  · cases hunder.symm.trans hl
  · obtain rfl : c = c' := Option.some.inj (hc.symm.trans hc')
    rw [h, if_pos h5, drawComplete_eq]
    rfl
  · obtain rfl : c = c' := Option.some.inj (hc.symm.trans hc')
    rw [h, if_neg h5]
    rfl

/-- Settles O51: of what a draw step can do, only completion writes a result, and it ends BUSY. -/
theorem noResultBeforeCompletion : Obligations.NoResultBeforeCompletion := by
  intro P s
  rcases drawStep_cases P s with
    ⟨-, h⟩ | ⟨_, -, -, h⟩ | ⟨_, -, -, -, h⟩ | ⟨_, -, -, -, h⟩ <;> rw [h]
  · exact ⟨nofun, rfl, rfl, rfl, rfl, rfl, rfl, rfl, rfl⟩
  · exact ⟨nofun, rfl, rfl, rfl, rfl, rfl, rfl, rfl, rfl⟩
  · exact ⟨nofun, rfl, rfl, rfl, rfl, rfl, rfl, rfl, rfl⟩
  · exact ⟨fun _ => ⟨rfl, rfl⟩, rfl, rfl, rfl, rfl, rfl, rfl, rfl, rfl⟩

/-! ### The sorted results (R143) -/

theorem toNat_ofNat_of_le_mainRange {k : Nat} (hk : k ≤ 69) : (BitVec.ofNat 32 k).toNat = k := by
  rw [BitVec.toNat_ofNat]
  omega

/-- R143: the results, as numbers, are the accepted values in ascending order. -/
theorem sortedResults_toNat {acc : List Nat} (h5 : acc.length = 5) (hmax : ∀ k ∈ acc, k ≤ 69) :
    (sortedResults acc).toList.map BitVec.toNat = acc.insertionSort (· ≤ ·) := by
  have hlen : (acc.insertionSort (· ≤ ·)).length = 5 := by rw [List.length_insertionSort, h5]
  have hsorted : ∀ k ∈ acc.insertionSort (· ≤ ·), k ≤ 69 := fun k hk =>
    hmax k ((List.mem_insertionSort _).1 hk)
  unfold sortedResults
  generalize acc.insertionSort (· ≤ ·) = v at hlen hsorted
  match v, hlen with
  | [a, b, c, d, e], _ =>
    simp only [List.forall_mem_cons] at hsorted
    obtain ⟨ha, hb, hc, hd, he, -⟩ := hsorted
    change [(BitVec.ofNat 32 a).toNat, (BitVec.ofNat 32 b).toNat, (BitVec.ofNat 32 c).toNat,
      (BitVec.ofNat 32 d).toNat, (BitVec.ofNat 32 e).toNat] = _
    simp only [toNat_ofNat_of_le_mainRange, ha, hb, hc, hd, he]

theorem sortedResults_perm {acc : List Nat} (h5 : acc.length = 5) (hmax : ∀ k ∈ acc, k ≤ 69) :
    ((sortedResults acc).toList.map BitVec.toNat).Perm acc := by
  rw [sortedResults_toNat h5 hmax]
  exact List.perm_insertionSort _ acc

theorem sortedResults_pairwise {acc : List Nat} (h5 : acc.length = 5) (hnodup : acc.Nodup)
    (hmax : ∀ k ∈ acc, k ≤ 69) :
    ((sortedResults acc).toList.map BitVec.toNat).Pairwise (· < ·) := by
  rw [sortedResults_toNat h5 hmax]
  have hle := List.pairwise_insertionSort (· ≤ ·) acc
  have hne : (acc.insertionSort (· ≤ ·)).Nodup := (List.perm_insertionSort _ acc).nodup_iff.2 hnodup
  exact (hle.and hne).imp fun ⟨h, hn⟩ => lt_of_le_of_ne h hn

/-- Settles O49: the results are the insertion sort of the accepted values. -/
theorem completionSortsTheValues : Obligations.CompletionSortsTheValues := fun _ h5 hnodup hmax =>
  ⟨sortedResults_perm h5 hmax, sortedResults_pairwise h5 hnodup hmax⟩

/-- R147: each result is one of the accepted values. -/
theorem sortedResults_mem {acc : List Nat} (h5 : acc.length = 5) (hmax : ∀ k ∈ acc, k ≤ 69)
    (k : Fin 5) : (sortedResults acc)[k].toNat ∈ acc := by
  rw [← (sortedResults_perm h5 hmax).mem_iff]
  exact List.mem_map_of_mem (Vector.mem_toList_iff.2 (Vector.getElem_mem k.isLt))

/-- R147: the results are strictly increasing by index. -/
theorem sortedResults_lt {acc : List Nat} (h5 : acc.length = 5) (hnodup : acc.Nodup)
    (hmax : ∀ k ∈ acc, k ≤ 69) {j k : Fin 5} (hjk : j < k) :
    (sortedResults acc)[j].toNat < (sortedResults acc)[k].toNat := by
  have hpair := List.pairwise_iff_getElem.1 (sortedResults_pairwise h5 hnodup hmax) j k
    (by simp) (by simp) hjk
  simpa using hpair

/-! ### The run that completes (R147) -/

/-- A DRAW.MAIN that is still busy has made every draw of the run. -/
theorem drawRun_eq_underWay {P : Params} {s : State} {c : CcState} (hc : s.cc = some c) {n : Nat}
    (hb : (drawRun P n (drawMainStart s)).busy = true) :
    drawRun P n (drawMainStart s) = underWay P s c n := by
  have hrun := drawRun_drawMainStart P hc n
  generalize drawRun P n (drawMainStart s) = t at hrun hb
  cases hrun with
  | underWay => rfl
  | limited _ hb' => exact absurd (hb'.symm.trans hb) nofun
  | completed _ _ _ hb' => exact absurd (hb'.symm.trans hb) nofun

/-- A draw step that ends a DRAW.MAIN without a fault is its completion. -/
theorem drawStep_underWay_completes {P : Params} {s : State} {c : CcState} {n : Nat}
    (hb : (drawStep P (underWay P s c n)).busy = false)
    (hf : (drawStep P (underWay P s c n)).fault = none) :
    (accepted P c (n + 1)).length = 5 ∧
      drawStep P (underWay P s c n) = drawComplete (underWay P s c (n + 1)) := by
  rcases drawStep_cases P (underWay P s c n) with
    ⟨-, h⟩ | ⟨_, -, -, h⟩ | ⟨c', hc, -, h5, h⟩ | ⟨c', -, -, -, h⟩ <;> rw [h] at hb hf
  · cases hf
  · cases hf
  · obtain rfl : ccAfter P c n = c' := Option.some.inj hc
    exact ⟨h5, h⟩
  · cases hb

/-- R143, R147: a DRAW.MAIN that has ended without a fault is completed from the first `m`
candidates, the fewest that hold five values. -/
theorem drawRun_eq_drawComplete {P : Params} {s : State} {c : CcState} (hc : s.cc = some c)
    {n : Nat} (hb : (drawRun P n (drawMainStart s)).busy = false)
    (hf : (drawRun P n (drawMainStart s)).fault = none) :
    ∃ m, (accepted P c m).length = 5 ∧
      drawRun P n (drawMainStart s) = drawComplete (underWay P s c m) := by
  induction n with
  | zero =>
    rw [drawMainStart_eq_underWay P hc] at hb
    cases hb
  | succ n ih =>
    rw [drawRun_succ] at hb hf ⊢
    by_cases hbn : (drawRun P n (drawMainStart s)).busy = true
    · rw [if_pos hbn, drawRun_eq_underWay hc hbn] at hb hf ⊢
      exact ⟨n + 1, drawStep_underWay_completes hb hf⟩
    · rw [if_neg hbn] at hb hf ⊢
      exact ih hb hf

theorem accepted_range {P : Params} {c : CcState} {n k : Nat} (hk : k ∈ accepted P c n) :
    1 ≤ k ∧ k ≤ 69 := by
  obtain ⟨j, -, rfl⟩ := List.mem_map.1 ((mem_accepted P c).1 hk)
  exact candidate_range P _

/-- Settles O50: the run has completed from accepted values, which are distinct and in 1..69. -/
theorem drawMainResults : Obligations.DrawMainResults := by
  intro P s n _ hc t hb hf
  obtain ⟨c, hc⟩ := Option.ne_none_iff_exists'.1 hc
  obtain ⟨m, h5, ht⟩ := drawRun_eq_drawComplete hc hb hf
  have hmax : ∀ k ∈ accepted P c m, k ≤ 69 := fun k hk => (accepted_range hk).2
  have hres (k : Fin 5) : readRes t k = (sortedResults (accepted P c m))[k] :=
    congrArg (readRes · k) ht
  refine ⟨fun k => ?_, fun j k hjk => ?_, congrArg State.cpos ht, congrArg State.acc ht,
    congrArg State.ndraw ht⟩
  · rw [hres]
    exact accepted_range (sortedResults_mem h5 hmax k)
  · rw [hres, hres]
    exact sortedResults_lt h5 (nodup_accepted P c m) hmax hjk

/-- Settles O54: a DRAW.MAIN still under way after `n` draws has accepted all distinct values of the
first `n` candidates, and these are at most four. -/
theorem drawMainCompletesOnFiveIndices : Obligations.DrawMainCompletesOnFiveIndices := by
  intro P s c n hP hf hc h5
  have hrun := drawRun_drawMainStart P hc n
  generalize drawRun P n (drawMainStart s) = t at hrun ⊢
  cases hrun with
  | underWay _ hshort =>
    have hsub : (candidates P c n).dedup ⊆ accepted P c n := fun _ hj =>
      (mem_accepted P c).2 (List.mem_dedup.1 hj)
    have hle := ((List.nodup_dedup _).subperm hsub).length_le
    omega
  | limited hlimit =>
    obtain ⟨l, hl⟩ := hlimit
    cases hP.symm.trans hl
  | completed _ _ _ hb hf' => exact ⟨hb, hf'.trans hf⟩

end Sys2Proof.Machine

/-! ## 10_state.md: the state invariant -/

namespace Sys2Proof.Machine

/-- Settles O19: at reset nothing is seeded, under way or presented. -/
theorem resetMeetsTheInvariant : Obligations.ResetMeetsTheInvariant := by
  constructor <;> simp [State.reset]

/-! ### What the invariant does not depend on, and faults -/

/-- The invariant says nothing of the host's query answers. -/
theorem Inv.with_answers {s : State} (h : Inv s) (weaks : List (Option Bits64))
    (times : List Bits64) (weakCount timeCount : Nat) :
    Inv { s with
      weakAnswers := weaks
      timeAnswers := times
      weakQueries := weakCount
      timeQueries := timeCount } :=
  { h with }

theorem Inv.raise {s : State} (h : Inv s) (c : Cause) : Inv (s.raise c) :=
  { h with
    busyKeyed := nofun
    busyNoFault := nofun
    busyAtDrawMain := nofun
    iteratorClear := nofun }

theorem FaultsTo.inv {s t : State} (hfault : FaultsTo s t) (h : Inv s) : Inv t := by
  obtain ⟨c, rfl | rfl⟩ := hfault
  · exact h.raise c
  · exact (h.with_answers _ _ _ _).raise c

/-! ### Draw steps (R142 to R144) -/

section
variable {s : State} (h : Inv s) (hb : s.busy = true)
include h hb

/-- One more candidate is in 1..69, counted within the limit, and accepted only if new. -/
theorem Inv.drawn {c : CcState}
    (hlimit : drawLimitReached Config.params.maxDraws s.ndraw = false)
    (h5 : (accept s.acc (candidate Config.params c)).length ≠ 5) :
    Inv (drawn Config.params c s) := by
  have hgrow := (length_accept_le s.acc (candidate Config.params c)).2
  have hshort := h.accShort
  have hdrawn := h.accDrawn
  exact
    { h with
      busyKeyed := fun _ => rfl
      accShort := (by omega : (accept s.acc (candidate Config.params c)).length ≤ 4)
      accDistinct := nodup_accept h.accDistinct _
      accRange := fun k hk =>
        (mem_accept.1 hk).elim (h.accRange k) fun hk => hk ▸ candidate_range _ c
      accDrawn := (by omega : (accept s.acc (candidate Config.params c)).length ≤ s.ndraw + 1)
      iteratorClear := fun hb' => absurd (hb.symm.trans hb') nofun
      drawsBounded := fun l hl => drawLimitReached_eq_false.1 hlimit l hl }

/-- Completion clears the iterator, and moves past the DRAW.MAIN word that is at cpos. -/
theorem Inv.drawComplete (c : CcState) : Inv (drawComplete (Machine.drawn Config.params c s)) := by
  obtain ⟨hpos, -⟩ := List.getElem?_eq_some_iff.1 (h.busyAtDrawMain hb)
  exact
    { h with
      busyKeyed := nofun
      busyNoFault := nofun
      busyAtDrawMain := nofun
      accShort := Nat.zero_le 4
      accDistinct := List.nodup_nil
      accRange := nofun
      accDrawn := le_rfl
      iteratorClear := fun _ _ => ⟨rfl, rfl⟩
      drawsBounded := fun l _ => Nat.zero_le l
      cposInStream := hpos }

theorem Inv.drawStep : Inv (drawStep Config.params s) := by
  rcases drawStep_cases Config.params s with
    ⟨-, hs⟩ | ⟨_, -, -, hs⟩ | ⟨c, -, -, -, hs⟩ | ⟨c, -, hlimit, h5, hs⟩ <;> rw [hs]
  · exact h.raise _
  · exact h.raise _
  · exact h.drawComplete hb c
  · exact h.drawn hb hlimit h5

end

/-! ### Commands -/

/-- What decodes at cpos is there: the words of the command. -/
theorem stream_drop_of_fetch {s : State} {i : Instr} {rest : List Word}
    (h : fetch s = .instr i rest) :
    s.stream.drop s.cpos = encode i ++ rest := decode_eq_instr_iff.1 h

/-- A command completes at a boundary, so the iterator is clear before it and after it. -/
theorem Completes.iteratorClear {i : Instr} {s t : State} (hc : Completes s i t)
    (hs : s.acc = [] ∧ s.ndraw = 0) : t.acc = [] ∧ t.ndraw = 0 := by
  by_cases hi : i = .drawMain
  · obtain ⟨-, -, hacc, hndraw, -⟩ := hc.of_drawMain hi
    exact ⟨hacc, hndraw⟩
  · obtain ⟨hacc, hndraw, -⟩ := hc.iterator hi
    rwa [hacc, hndraw]

theorem Completes.drawMain_of_busy {i : Instr} {s t : State} (hc : Completes s i t)
    (hs : s.busy = false) (ht : t.busy = true) : i = .drawMain := by
  by_contra hi
  obtain ⟨-, -, hbusy⟩ := hc.iterator hi
  rw [hbusy, hs] at ht
  cases ht

theorem Completes.inv {i : Instr} {s t : State} {rest : List Word} (hc : Completes s i t)
    (h : Inv s) (hf : s.fault = none) (hb : s.busy = false) (hi : fetch s = .instr i rest) :
    Inv t := by
  obtain ⟨hacc, hndraw⟩ := hc.iteratorClear (h.iteratorClear hb hf)
  have hwords := stream_drop_of_fetch hi
  have hlen := congrArg List.length hwords
  rw [List.length_drop, List.length_append] at hlen
  have hstart (ht : t.busy = true) := hc.of_drawMain (hc.drawMain_of_busy hb ht)
  refine
    { mtiRange := fun m => hc.mtiRange h.mtiRange
      poolEmpty := hc.poolEmpty h.poolEmpty
      busyKeyed := fun ht => (hstart ht).1
      busyNoFault := fun _ => hc.fault.trans hf
      busyAtDrawMain := fun ht => ?_
      accShort := by simp [hacc]
      accDistinct := by simp [hacc]
      accRange := by simp [hacc]
      accDrawn := by simp [hacc]
      iteratorClear := fun _ _ => ⟨hacc, hndraw⟩
      drawsBounded := by simp [hndraw]
      cposInStream := ?_ }
  · obtain ⟨-, hcpos, -⟩ := hstart ht
    rw [hc.drawMain_of_busy hb ht] at hwords
    rw [hcpos, hc.stream, ← List.head?_drop, hwords]
    rfl
  · rw [hc.cpos, hc.stream]
    have hcpos := h.cposInStream
    split <;> omega

/-! ### The statements -/

/-- Settles O20: a step is a draw step, a command that faults or completes, or a fault at decode. -/
theorem stepsKeepTheInvariant : Obligations.StepsKeepTheInvariant := by
  intro s t h hstep
  rcases step_cases s with ⟨-, hs⟩ | ⟨-, hb, hs⟩ | ⟨hf, hb,
    ⟨i, rest, hi, hs⟩ | ⟨-, hs⟩ | ⟨-, hs⟩ | ⟨-, hs⟩⟩ <;> rw [hs] at hstep
  · cases hstep
  · cases hstep
    exact h.drawStep hb
  · rcases exec_faults_or_completes hstep with hfault | hc
    · exact hfault.inv h
    · exact hc.inv h hf hb hi
  · cases hstep
    exact h.raise _
  · cases hstep
  · cases hstep

theorem Inv.present {s : State} (h : Inv s) (w : Word) : Inv (hostAct (.present w) s) :=
  { h with
    busyAtDrawMain := fun hb => by
      have hhere := h.busyAtDrawMain hb
      obtain ⟨hpos, -⟩ := List.getElem?_eq_some_iff.1 hhere
      exact (List.getElem?_append_left hpos).trans hhere
    cposInStream := h.cposInStream.trans (by simp [hostAct]) }

theorem Inv.hostAct {s : State} (h : Inv s) (a : HostAction) : Inv (hostAct a s) := by
  cases a with
  | present w => exact h.present w
  | answerWeak | answerTime => exact h.with_answers _ _ _ _
  | reset => exact resetMeetsTheInvariant.with_answers _ _ _ _

/-- Settles O21, by induction on how the state is reached. -/
theorem reachableStatesMeetTheInvariant : Obligations.ReachableStatesMeetTheInvariant := by
  refine ⟨fun a s h => h.hostAct a, fun s hs => ?_⟩
  induction hs with
  | reset => exact resetMeetsTheInvariant
  | step _ hstep ih => exact stepsKeepTheInvariant _ _ ih hstep
  | host a _ ih => exact ih.hostAct a

end Sys2Proof.Machine
